-- ==== Sys2Proof/Names.lean ====
section
/-! DEFINITION. The spec's closed sets of names that several layers share: the opcodes, the ALU functions and the
fault causes. -/

namespace Sys2Proof

/-- The eight opcodes (spec/00_scope.md R1, 30_encoding.md R76). Their numbers stand in `opcodeOrder` (Decode.lean). -/
inductive Opcode
  | add | nand | lw | sw | beq | jalr | halt | noop
  deriving DecidableEq, Repr

/-- The ALU's function select `fn` (40_alu.md R94). -/
inductive AluFn
  | add | nand
  deriving DecidableEq, Repr

/-- `dec_err`: why a word does not decode (60_exceptions.md R156). -/
inductive DecodeErr
  /-- Bits 31:25 are not all 0 (30_encoding.md R67). -/
  | badOpcode
  /-- ADD or NAND with destReg above 7 (30_encoding.md R72). -/
  | badDestReg
  deriving DecidableEq, Repr

/-- The causes of a BoundsError (60_exceptions.md R157). -/
inductive BoundsErr
  /-- LW or SW with an address outside [0, 65536) (41_memory.md R109). -/
  | memAddress
  /-- BEQ or JALR with a target outside [0, 65536] (42_control.md R128; UNVERIFIED, log 9). -/
  | pcTarget
  deriving DecidableEq, Repr

end Sys2Proof
end

