-- ==== Sys2Proof/Word.lean ====
section
/-! DEFINITION. The word type of the core and its plainest arithmetic (spec/00_scope.md R6, R8). -/

namespace Sys2Proof

/-- A 32-bit pattern: the contents of a register or of a memory word (R6 `XLEN`, R8). -/
abbrev Word := BitVec 32

/-- The index of a general register, 0 to 7 (10_state.md R20, R22). -/
abbrev Reg := Fin 8

/-- `sval(w)`: the two's-complement value of a pattern (R8). -/
abbrev sval (w : Word) : Int := w.toInt

/-- `word32(v)`: the pattern congruent to the integer `v` modulo 2^32 (R8). -/
abbrev word32 (v : Int) : Word := BitVec.ofInt 32 v

end Sys2Proof
end

