-- ==== Sys2Proof/Syntax.lean ====
section
/-! DEFINITION. The instructions as syntax, one constructor per row of spec/opcode_table.json. -/

namespace Sys2Proof

/-- One decoded instruction. The fields keep the encoding's order regA, regB, third field (30_encoding.md R83).
Ignored bits (30_encoding.md R79) are no part of it (DESIGN CHOICE, log 25). -/
inductive Instr
  /-- `add A B D`: `x[A] <- x[D] + x[B]` (40_alu.md R96). -/
  | add (rA rB rD : Reg)
  /-- `nand A B D`: `x[D] <- ~(x[A] & x[B])` (40_alu.md R98). -/
  | nand (rA rB rD : Reg)
  /-- `lw A B off`: `x[B] <- mem[x[A] + off]` (41_memory.md R111). -/
  | lw (rA rB : Reg) (imm : Int)
  /-- `sw A B off`: `mem[x[A] + off] <- x[B]` (41_memory.md R112). -/
  | sw (rA rB : Reg) (imm : Int)
  /-- `beq A B off`: to `pc + off` if `x[A] = x[B]` (42_control.md R130). -/
  | beq (rA rB : Reg) (imm : Int)
  /-- `jalr A B`: to `x[A]`, link in `x[B]` (42_control.md R131, R132). -/
  | jalr (rA rB : Reg)
  /-- `halt` (43_system.md R145). -/
  | halt
  /-- `noop` (43_system.md R146). -/
  | noop
  deriving DecidableEq, Repr

/-- The `op` output of the decoder (00_scope.md R11). -/
def Instr.opcode : Instr → Opcode
  | .add .. => .add
  | .nand .. => .nand
  | .lw .. => .lw
  | .sw .. => .sw
  | .beq .. => .beq
  | .jalr .. => .jalr
  | .halt => .halt
  | .noop => .noop

end Sys2Proof
end

