-- ==== Sys2Proof/WellFormed.lean ====
section
/-! DEFINITION. Which instructions have an encoding: the legal argument tuples of the encoder (spec/30_encoding.md
R81, R83). Register fields are in 0 to 7 by their type, so the offset is the one field to check. -/

namespace Sys2Proof

/-- "`off` must lie in [-32768, 32767]" (30_encoding.md R73, R83). -/
def offsetInRange (imm : Int) : Bool := decide (-32768 ≤ imm) && decide (imm ≤ 32767)

/-- The instruction's operands all fit their fields (30_encoding.md R81, R83). -/
def Instr.wellFormed : Instr → Bool
  | .add _ _ _ => true
  | .nand _ _ _ => true
  | .lw _ _ imm => offsetInRange imm
  | .sw _ _ imm => offsetInRange imm
  | .beq _ _ imm => offsetInRange imm
  | .jalr _ _ => true
  | .halt => true
  | .noop => true

end Sys2Proof
end

