-- ==== Sys2Proof/Decode.lean ====
section
/-! DEFINITION. The instruction decoder block and the canonical encoder (spec/30_encoding.md). -/

namespace Sys2Proof

/-! ## The opcode map -/

/-- OPCODE_MAP, the one table: the opcodes in the order of their values 0 to 7 (30_encoding.md R76; D2, UNVERIFIED, log 2). -/
def opcodeOrder : List Opcode := [.add, .nand, .lw, .sw, .beq, .jalr, .halt, .noop]

/-- OPCODE_MAP on any integer; nothing outside 0 to 7 is an opcode (30_encoding.md R67, R76). -/
def opcodeMap (v : Int) : Option Opcode := if 0 ≤ v then opcodeOrder[v.toNat]? else none

/-- OPVAL, the inverse of OPCODE_MAP (30_encoding.md R81). -/
def opVal (op : Opcode) : Nat := opcodeOrder.idxOf op

/-! ## Field extraction -/

/-- `takeField(v, shift)`: the bits above `shift` (floor division) and the remainder below (30_encoding.md R68). -/
def takeField (v : Int) (shift : Nat) : Int × Int :=
  (v / 2 ^ shift, v - v / 2 ^ shift * 2 ^ shift)

/-- `op_val`: the arithmetic right shift of the word by 22 (30_encoding.md R67). -/
def opField (w : Word) : Int := (takeField (sval w) 22).1

/-- The remainder below the opcode, `instr[21:0]` (30_encoding.md R69). -/
def below22 (w : Word) : Int := (takeField (sval w) 22).2

/-- The field regA, `instr[21:19]` (30_encoding.md R69). -/
def regAField (w : Word) : Int := (takeField (below22 w) 19).1

/-- The remainder below regA, `instr[18:0]` (30_encoding.md R70). -/
def below19 (w : Word) : Int := (takeField (below22 w) 19).2

/-- The field regB, `instr[18:16]` (30_encoding.md R70). -/
def regBField (w : Word) : Int := (takeField (below19 w) 16).1

/-- The low field, `instr[15:0]`, unsigned (30_encoding.md R71). -/
def low16 (w : Word) : Int := (takeField (below19 w) 16).2

/-- The register that a field value in 0 to 7 selects (10_state.md R22). -/
def regOfField (v : Int) : Reg := Fin.ofNat 8 v.toNat

/-- `sext_16(u)`: "if bit 15 is set, subtract 2^16" (30_encoding.md R73, 00_scope.md R8). -/
def sext16 (u : Int) : Int := if 2 ^ 15 ≤ u then u - 2 ^ 16 else u

/-- The opcode of a word, if its value is one of 0 to 7 (30_encoding.md R67, R76). -/
def opcodeOf (w : Word) : Option Opcode := opcodeMap (opField w)

/-! ## The decoder -/

/-- Format R: destReg is the whole low field and must be 0 to 7 (30_encoding.md R72, R77). -/
def decodeR (make : Reg → Reg → Reg → Instr) (w : Word) : Except DecodeErr Instr :=
  if 7 < low16 w then .error .badDestReg
  else .ok (make (regOfField (regAField w)) (regOfField (regBField w)) (regOfField (low16 w)))

/-- Format I: the low field is a signed offset (30_encoding.md R73, R77). -/
def decodeI (make : Reg → Reg → Int → Instr) (w : Word) : Except DecodeErr Instr :=
  .ok (make (regOfField (regAField w)) (regOfField (regBField w)) (sext16 (low16 w)))

/-- The decoder: total on every word, rejecting by name (30_encoding.md R77, R78). -/
def decode (w : Word) : Except DecodeErr Instr :=
  match opcodeOf w with
  | none => .error .badOpcode
  | some .add => decodeR .add w
  | some .nand => decodeR .nand w
  | some .lw => decodeI .lw w
  | some .sw => decodeI .sw w
  | some .beq => decodeI .beq w
  | some .jalr => .ok (.jalr (regOfField (regAField w)) (regOfField (regBField w)))
  | some .halt => .ok .halt
  | some .noop => .ok .noop

/-! ## The encoder -/

/-- `base`: opcode, regA and regB in their places (30_encoding.md R81). -/
def encodeBase (op : Opcode) (rA rB : Reg) : Int :=
  opVal op * 2 ^ 22 + rA.val * 2 ^ 19 + rB.val * 2 ^ 16

/-- The canonical encoder; ignored bits are 0 (30_encoding.md R81). -/
def encode : Instr → Word
  | .add rA rB rD => word32 (encodeBase .add rA rB + rD.val)
  | .nand rA rB rD => word32 (encodeBase .nand rA rB + rD.val)
  | .lw rA rB imm => word32 (encodeBase .lw rA rB + imm % 2 ^ 16)
  | .sw rA rB imm => word32 (encodeBase .sw rA rB + imm % 2 ^ 16)
  | .beq rA rB imm => word32 (encodeBase .beq rA rB + imm % 2 ^ 16)
  | .jalr rA rB => word32 (encodeBase .jalr rA rB)
  | .halt => word32 (encodeBase .halt 0 0)
  | .noop => word32 (encodeBase .noop 0 0)

/-- The bits of a word that its instruction ignores, as a mask: bits 15:0 of JALR, bits 21:0 of HALT and NOOP
(30_encoding.md R74, R75, R79). -/
def ignoredBits : Opcode → Word
  | .jalr => 0x0000FFFF
  | .halt => 0x003FFFFF
  | .noop => 0x003FFFFF
  | .add | .nand | .lw | .sw | .beq => 0

/-! ## The opcode table's numbering -/

/-- The word whose bits the opcode table numbers `w`: one 32-bit word holds the whole instruction, and the bits
above `nbits` are 0 (30_encoding.md R65). -/
def tableWord (nbits w : Nat) : Word := BitVec.ofNat 32 (w % 2 ^ nbits)

/-- What the decoder reads from an instruction whose bits are `w` in the opcode table's numbering. -/
def decodeTableWord (nbits w : Nat) : Option Instr :=
  match decode (tableWord nbits w) with
  | .ok i => some i
  | .error _ => none

end Sys2Proof
end

