-- ==== Sys2Proof/Config.lean ====
section
/-! DEFINITION. The implementation parameters of the core (spec/00_scope.md R6, R7) that are not types, and the one
value the spec leaves free. -/

namespace Sys2Proof.Config

/-- `CAPACITY`: the memory holds 65536 words; the literal is taken as written (R6, R7; UNVERIFIED, log 24). -/
def capacity : Nat := 65536

/-- Lets `simp` hand the literal to `omega`. -/
@[simp] theorem capacity_eq : capacity = 65536 := rfl

/-- What a 32-bit signal carries where the spec gives it no value: a read port that the opcode does not use, the write
data of an opcode that writes no register, the link of any but JALR (10_state.md R25; DESIGN CHOICE, log 28). A free
value; no rule reads it. -/
opaque dontCare : Word

end Sys2Proof.Config
end

