-- ==== Sys2Proof/Machine/State.lean ====
section
/-! DEFINITION. The machine's state as plain data, its value after reset, and the reasons a step can stop. -/

namespace Sys2Proof.Machine

/-- What `Faulted` carries: the kind (60_exceptions.md R155) with one of that kind's causes (R156, R157). -/
inductive RunFault
  /-- `DecodeError` and its cause (R156). -/
  | decodeError (cause : DecodeErr)
  /-- `BoundsError` and its cause (R157). -/
  | boundsError (cause : BoundsErr)
  deriving DecidableEq, Repr

/-- The run status (10_state.md R33); its numeric fields are in Machine/Flags.lean. Only `running` executes. -/
inductive Status
  | running
  | halted
  | exhaustedMemory
  | faulted (f : RunFault)
  deriving DecidableEq, Repr

/-- Memory as (word index, word) pairs, the indices strictly rising and no word equal to what an unlisted index reads
as (`Memory.wf`, Machine/Ops.lean). The unit is the 32-bit word, the smallest the core can address (20_memory.md R46,
R47; DESIGN CHOICE, log 7). -/
abbrev Memory := List (Nat × Word)

/-- The whole state of the core, one aggregate (10_state.md R36). -/
structure State where
  /-- `x[0]` to `x[7]` (R20). -/
  regs : Vector Word 8
  /-- The word index of the instruction being executed (R27; its range is `State.Inv`, DESIGN CHOICE, log 8). -/
  pc : Nat
  /-- `mem[0]` to `mem[65535]` (R29). -/
  mem : Memory
  /-- `memoryExtent`, the number of live words (R31; its range is `State.Inv`, DESIGN CHOICE, log 8). -/
  ext : Nat
  /-- The run status (R33). -/
  status : Status
  /-- The number of instructions completed, without wrap (R35). -/
  instructionsExecuted : Nat
  deriving DecidableEq, Repr

/-- The state reporter's view (60_exceptions.md R168): `memory` holds words 0 to `ext - 1`. -/
structure Snapshot where
  pc : Nat
  registers : Vector Word 8
  memory : List Word
  memoryExtent : Nat
  instructionsExecuted : Nat
  deriving DecidableEq, Repr

/-- Why the machine stops without a next state. A DecodeError or BoundsError of the core is none of these: it is a
next state whose status is `faulted` (60_exceptions.md R158; UNVERIFIED, log 5). -/
inductive Fault
  /-- Raised by the run control in a terminal state: "terminal states have no step" (70_reset_and_hazards.md R184,
  10_state.md R34; DEDUCED, log 4). Safe: the spec gives no step here. -/
  | runEnded
  /-- Raised by the run control when a fetch would leave the memory, `CAPACITY <= pc < ext`; no state that meets
  `State.Inv` reaches it (10_state.md R27, R31; DESIGN CHOICE, log 8). Safe. -/
  | fetchOutsideMemory
  deriving DecidableEq, Repr

/-- Why the model gives something no meaning. -/
inductive Refusal
  /-- Raised by an arm of `exec` whose instruction has no meaning yet; no arm does. Safe. -/
  | notModelled (mnemonic : String)
  /-- Raised by `State.load` on an image of more than 65536 words: "refused at load and no run starts"
  (70_reset_and_hazards.md R181; UNVERIFIED, log 17). Safe. -/
  | imageTooLarge
  deriving DecidableEq, Repr

/-- The state right after reset with the empty image, N = 0 (70_reset_and_hazards.md R180, R181; DESIGN CHOICE, log 6). A program is
loaded by `State.load`. -/
def State.reset : State where
  regs := #v[0, 0, 0, 0, 0, 0, 0, 0]
  pc := 0
  mem := []
  ext := 0
  status := .running
  instructionsExecuted := 0

end Sys2Proof.Machine
end

