-- ==== Sys2Proof/Machine/Ops.lean ====
section
/-! DEFINITION. The named operations over memory, registers and the run control's state. -/

namespace Sys2Proof.Machine

/-! ## Memory -/

/-- What an unlisted word reads as: 0, the spec's choice for `UNWRITTEN_READ` (10_state.md R30; D4, 90_conflicts.md
C10; UNVERIFIED, log 1). -/
def Memory.unlisted : Word := 0

/-- The canonical form: indices strictly rising, no entry equal to what an unlisted index reads as. -/
abbrev Memory.wf (m : Memory) : Prop :=
  m.Pairwise (fun c d => c.1 < d.1) ∧ ∀ c ∈ m, c.2 ≠ Memory.unlisted

/-- `MemRead(a, 1)` (00_scope.md R9). -/
def Memory.read : Memory → Nat → Word
  | [], _ => Memory.unlisted
  | (b, u) :: m, a => if a = b then u else Memory.read m a

/-- Puts a word in front of a list whose indices are higher, unless it is what an unlisted index reads as. -/
def Memory.consWord (a : Nat) (v : Word) (m : Memory) : Memory :=
  if v = Memory.unlisted then m else (a, v) :: m

/-- `MemWrite(a, 1, v)` (00_scope.md R9), keeping the canonical form. -/
def Memory.write : Memory → Nat → Word → Memory
  | [], a, v => Memory.consWord a v []
  | (b, u) :: m, a, v =>
    if a < b then Memory.consWord a v ((b, u) :: m)
    else if a = b then Memory.consWord a v m
    else (b, u) :: Memory.write m a v

/-- The memory that holds `img` from word `k` on (10_state.md R30). -/
def Memory.ofImage (k : Nat) : List Word → Memory
  | [] => []
  | w :: img => Memory.consWord k w (Memory.ofImage (k + 1) img)

/-! ## Registers and memory of a state -/

/-- `x[r]`: all eight registers are plain storage, `x[0]` too (10_state.md R20). -/
def State.reg (s : State) (r : Reg) : Word := s.regs.get r

/-- `x[r] <- v` (10_state.md R20). -/
def State.setReg (s : State) (r : Reg) (v : Word) : State :=
  { s with regs := s.regs.set r.val v r.isLt }

/-- `mem[a]`. -/
def State.memWord (s : State) (a : Nat) : Word := s.mem.read a

/-- A store of SW: the word, and "if index >= ext: ext <- index + 1" (41_memory.md R112, 10_state.md R31). -/
def State.storeWord (s : State) (a : Nat) (v : Word) : State :=
  { s with mem := s.mem.write a v, ext := if s.ext ≤ a then a + 1 else s.ext }

/-! ## The ports the run control commits -/

/-- The register file's write port: `x[wa] <- wd` if `we` (10_state.md R24). -/
def State.commitReg (s : State) (we : Bool) (wa : Option Reg) (wd : Word) : State :=
  match we, wa with
  | true, some r => s.setReg r wd
  | true, none => s
  | false, _ => s

/-- The memory's write: `MemWrite(index, 1, v)` with the extent's growth, if there is one (20_memory.md R50, R51). -/
def State.commitStore (s : State) (store : Option (Nat × Word)) : State :=
  match store with
  | some (a, v) => s.storeWord a v
  | none => s

/-! ## Completing, faulting and ending -/

/-- What the run control commits for every instruction that completes: the next pc and one more instruction counted
(70_reset_and_hazards.md R184, 10_state.md R35; UNVERIFIED, log 10). -/
def State.complete (s : State) (nextPc : Nat) : State :=
  { s with pc := nextPc, instructionsExecuted := s.instructionsExecuted + 1 }

/-- A terminal status other than a fault, `finish Halted` or `finish ExhaustedMemory` (00_scope.md R9). -/
def State.finish (s : State) (st : Status) : State := { s with status := st }

/-- Taking a fault: the status becomes Faulted(kind, cause) and nothing else changes (60_exceptions.md R158, R159;
UNVERIFIED, logs 5 and 10). The core has no trap entry and no return from one (R164, R165). -/
def State.takeFault (s : State) (f : RunFault) : State := { s with status := .faulted f }

end Sys2Proof.Machine
end

