-- ==== Sys2Proof/Machine/Operands.lean ====
section
/-! DEFINITION. The operand forms, as the signals of two blocks (spec/00_scope.md R11; UNVERIFIED, log 27): the register
file control's table and read data, and the memory address translator. -/

namespace Sys2Proof.Machine

/-! ## Register file control: which registers (spec/10_state.md R25) -/

/-- `src1`: the register the first read port reads, if any (10_state.md R25). -/
def src1Reg : Instr → Option Reg
  | .add _ _ rD => some rD
  | .nand rA _ _ => some rA
  | .lw rA _ _ => some rA
  | .sw rA _ _ => some rA
  | .beq rA _ _ => some rA
  | .jalr rA _ => some rA
  | .halt => none
  | .noop => none

/-- `src2`: the register the second read port reads, if any (10_state.md R25). -/
def src2Reg : Instr → Option Reg
  | .add _ rB _ => some rB
  | .nand _ rB _ => some rB
  | .lw _ _ _ => none
  | .sw _ rB _ => some rB
  | .beq _ rB _ => some rB
  | .jalr _ _ => none
  | .halt => none
  | .noop => none

/-- `wa`: the register the write port addresses, if the opcode writes one (10_state.md R25). -/
def writeReg : Instr → Option Reg
  | .add rA _ _ => some rA
  | .nand _ _ rD => some rD
  | .lw _ rB _ => some rB
  | .sw _ _ _ => none
  | .beq _ _ _ => none
  | .jalr _ rB => some rB
  | .halt => none
  | .noop => none

/-! ## Register file control: the read data and the write enable (spec/10_state.md R24, R25) -/

/-- `src1[31:0]`: the read data of the first port, from before the instruction (10_state.md R24). -/
def src1 (i : Instr) (s : State) : Word :=
  match src1Reg i with
  | some r => s.reg r
  | none => Config.dontCare

/-- `src2[31:0]`: the read data of the second port, from before the instruction (10_state.md R24). -/
def src2 (i : Instr) (s : State) : Word :=
  match src2Reg i with
  | some r => s.reg r
  | none => Config.dontCare

/-- `we`: the opcode writes a register, and "`we` is forced to 0 when the instruction raises a fault" (10_state.md
R25). -/
def writeEnable (i : Instr) (fault : Option BoundsErr) : Bool := (writeReg i).isSome && fault.isNone

/-! ## The memory address translator (spec/41_memory.md) -/

/-- The address translator: the exact sum, checked against [0, CAPACITY), mapped to itself (41_memory.md R109). -/
def translateAddr (base : Word) (imm : Int) : Except BoundsErr Nat :=
  let ea := sval base + imm
  if 0 ≤ ea ∧ ea < Config.capacity then .ok ea.toNat else .error .memAddress

/-- The same with the sum wrapped to 32 bits, which "a model may use" too (41_memory.md R110). The meanings use
`translateAddr`; a statement says that the two agree. -/
def translateAddrWrapped (base : Word) (imm : Int) : Except BoundsErr Nat :=
  let ea := sval (base + word32 imm)
  if 0 ≤ ea ∧ ea < Config.capacity then .ok ea.toNat else .error .memAddress

/-- The translator's `addr_err` output, if it has one. -/
def errorOf (r : Except BoundsErr Nat) : Option BoundsErr :=
  match r with
  | .ok _ => none
  | .error e => some e

/-- `addr_err`: raised by LW and SW, the only opcodes that use the translator (41_memory.md R109, 60_exceptions.md
R157). -/
def addrErr (i : Instr) (s : State) : Option BoundsErr :=
  match i with
  | .lw _ _ imm => errorOf (translateAddr (src1 i s) imm)
  | .sw _ _ imm => errorOf (translateAddr (src1 i s) imm)
  | .add _ _ _ => none
  | .nand _ _ _ => none
  | .beq _ _ _ => none
  | .jalr _ _ => none
  | .halt => none
  | .noop => none

/-- The word LW reads, `MemRead(index, 1)`; where the address is bad there is none (41_memory.md R111). -/
def loadData (r : Except BoundsErr Nat) (s : State) : Word :=
  match r with
  | .ok a => s.memWord a
  | .error _ => Config.dontCare

/-- The word and index of SW's `MemWrite(index, 1, v)`; no other opcode stores (41_memory.md R112, 20_memory.md R50). -/
def storeAt (r : Except BoundsErr Nat) (v : Word) : Option (Nat × Word) :=
  match r with
  | .ok a => some (a, v)
  | .error _ => none

end Sys2Proof.Machine
end

