-- ==== Sys2Proof/Machine/PcLogic.lean ====
section
/-! DEFINITION. The PC logic block (spec/42_control.md R125 to R132, 00_scope.md R11; UNVERIFIED, log 27): `next_pc`, `link`
and `pc_err` from `pc`, the decoded instruction (its `op`, `rA`, `rB` and `imm`), `src1` and `src2`. -/

namespace Sys2Proof.Machine

/-- The comparator: `eq`, true exactly when the two patterns are identical (R129). -/
def eqComparator (a b : Word) : Bool := decide (a = b)

/-- BEQ's target: relative to the BEQ itself, "NOT pc + 1 + imm" (R130; UNVERIFIED, log 24). -/
def branchTarget (pc : Nat) (src1 src2 : Word) (imm : Int) : Int :=
  if eqComparator src1 src2 then pc + imm else pc + 1

/-- JALR's target: the old `x[rA]`, read signed, or `pc` if `rA = rB` (R131, R132; UNVERIFIED, log 12). -/
def jalrTarget (pc : Nat) (rA rB : Reg) (src1 : Word) : Int :=
  if rA = rB then pc else sval src1

/-- The value JALR writes to `x[rB]` (R131, R132; UNVERIFIED, log 12). -/
def jalrLink (pc : Nat) (rA rB : Reg) : Word :=
  if rA = rB then word32 pc else word32 (pc + 1)

/-- `next_pc` by opcode, an exact integer (R126, R127; HALT: 43_system.md R145). -/
def nextPc (i : Instr) (pc : Nat) (src1 src2 : Word) : Int :=
  match i with
  | .add _ _ _ => pc + 1
  | .nand _ _ _ => pc + 1
  | .lw _ _ _ => pc + 1
  | .sw _ _ _ => pc + 1
  | .beq _ _ imm => branchTarget pc src1 src2 imm
  | .jalr rA rB => jalrTarget pc rA rB src1
  | .halt => pc + 1
  | .noop => pc + 1

/-- `link[31:0]`, JALR's alone (R125, R131, R132). -/
def link (i : Instr) (pc : Nat) : Word :=
  match i with
  | .jalr rA rB => jalrLink pc rA rB
  | .add _ _ _ => Config.dontCare
  | .nand _ _ _ => Config.dontCare
  | .lw _ _ _ => Config.dontCare
  | .sw _ _ _ => Config.dontCare
  | .beq _ _ _ => Config.dontCare
  | .halt => Config.dontCare
  | .noop => Config.dontCare

/-- `check_target(t)`: an explicit next pc must lie in [0, CAPACITY] (R128; D6, UNVERIFIED, log 9). -/
def checkTarget (t : Int) : Option BoundsErr :=
  if 0 ≤ t ∧ t ≤ Config.capacity then none else some .pcTarget

/-- `pc_err`: "applied to every `next_pc` that BEQ or JALR computes", never to the sequential advance (R127, R128). -/
def pcErr (i : Instr) (pc : Nat) (src1 src2 : Word) : Option BoundsErr :=
  match i with
  | .beq _ _ _ => checkTarget (nextPc i pc src1 src2)
  | .jalr _ _ => checkTarget (nextPc i pc src1 src2)
  | .add _ _ _ => none
  | .nand _ _ _ => none
  | .lw _ _ _ => none
  | .sw _ _ _ => none
  | .halt => none
  | .noop => none

end Sys2Proof.Machine
end

