-- ==== Sys2Proof/Machine/Commit.lean ====
section
/-! DEFINITION. The ALU block, the register file's write data, and how the blocks' outputs become the next state: the
fault an instruction raises, or its commit (spec/70_reset_and_hazards.md R184, 00_scope.md R11; UNVERIFIED, log 27). -/

namespace Sys2Proof.Machine

/-- The ALU: no flag outputs, no exception (40_alu.md R94). ADD wraps modulo 2^32 (R95; D3, UNVERIFIED, log 3); NAND is
bit by bit (R97). -/
def alu (fn : AluFn) (a b : Word) : Word :=
  match fn with
  | .add => word32 (sval a + sval b)
  | .nand => ~~~(a &&& b)

/-- `wd[31:0]` by opcode (10_state.md R25). -/
def writeData (i : Instr) (s : State) : Word :=
  match i with
  | .add _ _ _ => alu .add (src1 i s) (src2 i s)
  | .nand _ _ _ => alu .nand (src1 i s) (src2 i s)
  | .lw _ _ imm => loadData (translateAddr (src1 i s) imm) s
  | .jalr _ _ => link i s.pc
  | .sw _ _ _ => Config.dontCare
  | .beq _ _ _ => Config.dontCare
  | .halt => Config.dontCare
  | .noop => Config.dontCare

/-- The memory write by opcode: SW's, of `src2` at the translated index (41_memory.md R112). -/
def memWrite (i : Instr) (s : State) : Option (Nat × Word) :=
  match i with
  | .sw _ _ imm => storeAt (translateAddr (src1 i s) imm) (src2 i s)
  | .add _ _ _ => none
  | .nand _ _ _ => none
  | .lw _ _ _ => none
  | .beq _ _ _ => none
  | .jalr _ _ => none
  | .halt => none
  | .noop => none

/-- `r.fault`: no instruction can raise both (60_exceptions.md R157, R160). -/
def raised (i : Instr) (s : State) : Option BoundsErr :=
  (addrErr i s).or (pcErr i s.pc (src1 i s) (src2 i s))

/-- The commit of an instruction that raises nothing: its memory write and register write, all computed from the old
state (00_scope.md R10), its next pc and the count (70_reset_and_hazards.md R184). -/
def committed (i : Instr) (s : State) : State :=
  ((s.commitStore (memWrite i s)).commitReg (writeEnable i (raised i s)) (writeReg i) (writeData i s)).complete
    (nextPc i s.pc (src1 i s) (src2 i s)).toNat

/-- The state after an instruction that is not HALT: its commit, or the BoundsError it raises with none of its effect
(60_exceptions.md R157, R158). -/
def retired (i : Instr) (s : State) : State :=
  match raised i s with
  | none => committed i s
  | some e => s.takeFault (.boundsError e)

end Sys2Proof.Machine
end

