-- ==== Sys2Proof/Machine/Alu.lean ====
section
/-! DEFINITION. The two register-register instructions, ADD and NAND (spec/40_alu.md). -/

namespace Sys2Proof.Machine

/-- ADD: `x[rA] <- word32(sval(x[rD]) + sval(x[rB]))`, `pc + 1`; destReg is a source and regA the destination (R96;
UNVERIFIED, log 24). -/
def execAdd (rA rB rD : Reg) (s : State) : Host.Outcome State Fault Refusal :=
  .next (retired (.add rA rB rD) s)

/-- NAND: `x[rD] <- ~(x[rA] & x[rB])`, `pc + 1` (R98). -/
def execNand (rA rB rD : Reg) (s : State) : Host.Outcome State Fault Refusal :=
  .next (retired (.nand rA rB rD) s)

end Sys2Proof.Machine
end

