-- ==== Sys2Proof/Machine/Control.lean ====
section
/-! DEFINITION. The control transfers, BEQ and JALR (spec/42_control.md). -/

namespace Sys2Proof.Machine

/-- BEQ: to `pc + imm` if `x[rA] = x[rB]`, else to `pc + 1`; a target outside [0, 65536] is a BoundsError (R130). -/
def execBeq (rA rB : Reg) (imm : Int) (s : State) : Host.Outcome State Fault Refusal :=
  .next (retired (.beq rA rB imm) s)

/-- JALR: the link to `x[rB]` and a jump to `x[rA]`; a target outside [0, 65536] is a BoundsError and drops the link
(R128, R131, R132). -/
def execJalr (rA rB : Reg) (s : State) : Host.Outcome State Fault Refusal :=
  .next (retired (.jalr rA rB) s)

end Sys2Proof.Machine
end

