-- ==== Sys2Proof/Machine/LoadStore.lean ====
section
/-! DEFINITION. The memory instructions, LW and SW (spec/41_memory.md). -/

namespace Sys2Proof.Machine

/-- LW: `x[rB] <- mem[x[rA] + imm]`, `pc + 1`; an index at or above `ext` is legal, an address outside the memory is a
BoundsError (R111). -/
def execLw (rA rB : Reg) (imm : Int) (s : State) : Host.Outcome State Fault Refusal :=
  .next (retired (.lw rA rB imm) s)

/-- SW: `mem[x[rA] + imm] <- x[rB]`, `ext` grows to cover the index, `pc + 1`; an address outside the memory is a
BoundsError (R112). -/
def execSw (rA rB : Reg) (imm : Int) (s : State) : Host.Outcome State Fault Refusal :=
  .next (retired (.sw rA rB imm) s)

end Sys2Proof.Machine
end

