-- ==== Sys2Proof/Machine/System.lean ====
section
/-! DEFINITION. The run-control instructions, HALT and NOOP (spec/43_system.md). -/

namespace Sys2Proof.Machine

/-- HALT: `pc + 1` is committed and counted, then the status is Halted (R145; UNVERIFIED, logs 10 and 13). -/
def execHalt (s : State) : Host.Outcome State Fault Refusal :=
  .next ((retired .halt s).finish .halted)

/-- NOOP: only the pc advances (R146). -/
def execNoop (s : State) : Host.Outcome State Fault Refusal :=
  .next (retired .noop s)

end Sys2Proof.Machine
end

