-- ==== Sys2Proof/Machine/Dispatch.lean ====
section
/-! DEFINITION. `execute` of spec/70_reset_and_hazards.md R184: the opcode selects exactly one meaning. -/

namespace Sys2Proof.Machine

/-- The effect of one decoded instruction, committed; `step` checks before it that the state fetches (DESIGN CHOICE,
log 26). -/
def exec (i : Instr) (s : State) : Host.Outcome State Fault Refusal :=
  match i with
  | .add rA rB rD => Sys2Proof.Machine.execAdd rA rB rD s
  | .nand rA rB rD => Sys2Proof.Machine.execNand rA rB rD s
  | .lw rA rB imm => Sys2Proof.Machine.execLw rA rB imm s
  | .sw rA rB imm => Sys2Proof.Machine.execSw rA rB imm s
  | .beq rA rB imm => Sys2Proof.Machine.execBeq rA rB imm s
  | .jalr rA rB => Sys2Proof.Machine.execJalr rA rB s
  | .halt => Sys2Proof.Machine.execHalt s
  | .noop => Sys2Proof.Machine.execNoop s

end Sys2Proof.Machine
end

