-- ==== Sys2Proof/Machine/RunControl.lean ====
section
/-! DEFINITION. The run-control block (spec/70_reset_and_hazards.md R184) and what it takes to make it fetch a given
word. -/

namespace Sys2Proof.Machine

/-- Fetch, decode, execute at a pc inside the live extent (R184). -/
def fetchExecute (s : State) : Host.Outcome State Fault Refusal :=
  match decode (s.memWord s.pc) with
  | .error e => .next (s.takeFault (.decodeError e))
  | .ok i => exec i s

/-- One step, in the order of R161 and R184: a terminal state has none (DEDUCED, log 4); `pc >= ext` ends the run before any
fetch (UNVERIFIED, log 11); then fetch, decode and execute. -/
def runStep (s : State) : Host.Outcome State Fault Refusal :=
  match s.status with
  | .running =>
    if s.ext ≤ s.pc then .next (s.finish .exhaustedMemory)
    else if Config.capacity ≤ s.pc then .fault .fetchOutsideMemory
    else fetchExecute s
  | .halted => .fault .runEnded
  | .exhaustedMemory => .fault .runEnded
  | .faulted _ => .fault .runEnded

/-- The pc at which the next fetch can be: the state's own, or word 0 where the state's own is past the memory. -/
def State.fetchPc (s : State) : Nat := if s.pc < Config.capacity then s.pc else 0

/-- `s` with `w` stored where the next fetch reads, live, and the run going on (DESIGN CHOICE, log 6). -/
def State.placeWord (s : State) (w : Word) : State :=
  { s with
    pc := s.fetchPc
    mem := s.mem.write s.fetchPc w
    ext := if s.ext ≤ s.fetchPc then s.fetchPc + 1 else s.ext
    status := .running }

end Sys2Proof.Machine
end

