-- ==== Sys2Proof/Machine/Step.lean ====
section
/-! DEFINITION. The step function of the machine and the placing of one instruction where it fetches. -/

namespace Sys2Proof.Machine

/-- One fetch-decode-execute cycle (spec/70_reset_and_hazards.md R184). -/
def step (s : State) : Host.Outcome State Fault Refusal := runStep s

/-- `s` with the opcode table's bits `w` stored where `step` fetches its next instruction (DESIGN CHOICE, log 6). -/
def State.withFetchWord (s : State) (nbits w : Nat) : State := s.placeWord (tableWord nbits w)

end Sys2Proof.Machine
end

