-- ==== Sys2Proof/Machine/Assembly.lean ====
section
/-! DEFINITION. The spec's own assembly notation (spec/30_encoding.md R83 to R85; D11, UNVERIFIED, log 19): printing it, and
turning its statements into words. Reading text is out of scope (00_scope.md R5). -/

namespace Sys2Proof

/-- One statement of the notation, its label and comment left out (R83). -/
inductive Stmt
  | instr (i : Instr)
  /-- `.fill V`, a data word (R83, R84). -/
  | fill (v : Int)
  deriving DecidableEq, Repr

/-- Operands are decimal integers separated by spaces, after a lower-case mnemonic (R83). -/
def asmLine (mnemonic : String) (operands : List Int) : String :=
  operands.foldl (fun text v => text ++ " " ++ toString v) mnemonic

/-- The notation of an instruction, in field order (R83). -/
def Instr.toAsm : Instr → String
  | .add rA rB rD => asmLine "add" [rA.val, rB.val, rD.val]
  | .nand rA rB rD => asmLine "nand" [rA.val, rB.val, rD.val]
  | .lw rA rB imm => asmLine "lw" [rA.val, rB.val, imm]
  | .sw rA rB imm => asmLine "sw" [rA.val, rB.val, imm]
  | .beq rA rB imm => asmLine "beq" [rA.val, rB.val, imm]
  | .jalr rA rB => asmLine "jalr" [rA.val, rB.val]
  | .halt => asmLine "halt" []
  | .noop => asmLine "noop" []

/-- The word of a statement; "anything outside these ranges has no encoding, and the assembler must reject it"
(R83). -/
def Stmt.assemble : Stmt → Option Word
  | .instr i => if i.wellFormed then some (encode i) else none
  | .fill v => if -(2 ^ 31) ≤ v ∧ v < 2 ^ 32 then some (word32 v) else none

/-- The image of a program, one word a statement; nothing if a statement is rejected (R83). -/
def assembleProgram : List Stmt → Option (List Word)
  | [] => some []
  | st :: rest =>
    match st.assemble, assembleProgram rest with
    | some w, some ws => some (w :: ws)
    | _, _ => none

/-- The offset a label at `target` stands for in a `beq` at `at_`: `L - P`, not `L - P - 1` (R85). -/
def branchOffset (at_ target : Nat) : Int := target - at_

end Sys2Proof
end

