-- ==== Sys2Proof/Machine/Flags.lean ====
section
/-! DEFINITION. The numeric fields of the run status register (spec/10_state.md R33; D10, UNVERIFIED, log 14). The ISA has no
flags and no condition codes, so no instruction computes one (10_state.md R36). -/

namespace Sys2Proof.Machine

/-- `status.state`, 2 bits (R33). -/
def Status.stateCode : Status → BitVec 2
  | .running => 0
  | .halted => 1
  | .exhaustedMemory => 2
  | .faulted _ => 3

/-- `status.kind`, 2 bits, 0 unless faulted (R33, 60_exceptions.md R155). -/
def Status.kindCode : Status → BitVec 2
  | .running => 0
  | .halted => 0
  | .exhaustedMemory => 0
  | .faulted (.decodeError _) => 1
  | .faulted (.boundsError _) => 2

/-- `status.cause`, 3 bits, 0 unless faulted (R33, 60_exceptions.md R156, R157). -/
def Status.causeCode : Status → BitVec 3
  | .running => 0
  | .halted => 0
  | .exhaustedMemory => 0
  | .faulted (.decodeError .badOpcode) => 1
  | .faulted (.decodeError .badDestReg) => 2
  | .faulted (.boundsError .memAddress) => 3
  | .faulted (.boundsError .pcTarget) => 4

end Sys2Proof.Machine
end

