-- ==== Sys2Proof/Machine/Loader.lean ====
section
/-! DEFINITION. The program loader's interface: reset with an image (spec/60_exceptions.md R169,
70_reset_and_hazards.md R180 to R182). -/

namespace Sys2Proof.Machine

/-- The start of a run on `img`: `State.reset` with the image in words 0 to N - 1 and `ext = N`; an image of more than
65536 words is refused (R180, R181; DESIGN CHOICE, logs 6 and 17). -/
def State.load (img : List Word) : Host.Outcome State Fault Refusal :=
  if img.length ≤ Config.capacity then
    .next { State.reset with mem := Memory.ofImage 0 img, ext := img.length }
  else .refused .imageTooLarge

end Sys2Proof.Machine
end

