-- ==== Sys2Proof/Machine/Reporter.lean ====
section
/-! DEFINITION. The state reporter: the read-only snapshots and the final report (spec/60_exceptions.md R168,
70_reset_and_hazards.md R186; D23, UNVERIFIED, log 16). -/

namespace Sys2Proof.Machine

/-- `{pc, registers[0..7], memory[0..memoryExtent), memoryExtent, instructionsExecuted}` (R168). -/
def State.snapshot (s : State) : Snapshot where
  pc := s.pc
  registers := s.regs
  memory := (List.range s.ext).map s.memWord
  memoryExtent := s.ext
  instructionsExecuted := s.instructionsExecuted

/-- The snapshot a step exposes: of the state it leads to, be it a completed instruction or the end of the run
(R168). -/
def stepSnapshot (s : State) : Option Snapshot :=
  match step s with
  | .next t => some t.snapshot
  | .fault _ => none
  | .refused _ => none

/-- What is reported at the end of a run: the final snapshot, and beside it the terminal status (R168, R186). -/
def State.report (s : State) : Option (Snapshot × Status) :=
  if s.status = .running then none else some (s.snapshot, s.status)

end Sys2Proof.Machine
end

