-- ==== Sys2Proof/Safety.lean ====
section
/-! DEFINITION. The invariant of the machine, runs of it, and the frames in whose terms the statements speak. -/

namespace Sys2Proof.Machine

/-! ## The invariant -/

/-- pc and ext lie in [0, CAPACITY] (spec/10_state.md R27, R31), the memory is canonical, and every word it lists lies
below ext ("all written words lie below `ext`", 92_eei_decisions.md D24). -/
abbrev State.Inv (s : State) : Prop :=
  s.pc ≤ Config.capacity ∧ s.ext ≤ Config.capacity ∧ s.mem.wf ∧ ∀ c ∈ s.mem, c.1 < s.ext

/-! ## Runs -/

/-- `t` is reached from `s` by some number of steps. -/
inductive RunsTo : State → State → Prop
  | refl (s : State) : RunsTo s s
  | head {s t u : State} (h : step s = .next t) (rest : RunsTo t u) : RunsTo s u

/-- The state fetches: it is Running with `pc < ext` inside the memory (70_reset_and_hazards.md R184). -/
abbrev State.Fetches (s : State) : Prop :=
  s.status = .running ∧ s.pc < s.ext ∧ s.pc < Config.capacity

/-- The state is about to run the instruction `i`: it fetches, and the word at pc decodes to `i`. -/
abbrev State.AboutToRun (s : State) (i : Instr) : Prop :=
  s.Fetches ∧ decode (s.memWord s.pc) = .ok i

/-- The next step is a SW that stores to index `a`. -/
def State.StoresTo (s : State) (a : Nat) : Prop :=
  ∃ rA rB imm, s.AboutToRun (.sw rA rB imm) ∧ translateAddr (s.reg rA) imm = .ok a

/-- `t` is reached from `s` by some number of steps, none of which is a SW to index `a`. -/
inductive QuietRun (a : Nat) : State → State → Prop
  | refl (s : State) : QuietRun a s s
  | head {s t u : State} (quiet : ¬ s.StoresTo a) (h : step s = .next t) (rest : QuietRun a t u) : QuietRun a s u

/-! ## Frames -/

/-- Every word of memory, `ext` and the status are as before. -/
def SameMemory (s t : State) : Prop :=
  (∀ a, t.memWord a = s.memWord a) ∧ t.ext = s.ext ∧ t.status = s.status

/-- Every register but `r` is as before. -/
def SameRegsBut (r : Reg) (s t : State) : Prop := ∀ q, q ≠ r → t.reg q = s.reg q

/-- Every register is as before. -/
def SameRegs (s t : State) : Prop := ∀ q, t.reg q = s.reg q

/-- `t` is `s` with the status Faulted(`f`): all else as before (60_exceptions.md R158). -/
def FaultedFrom (s : State) (f : RunFault) (t : State) : Prop :=
  t.status = .faulted f ∧ SameRegs s t ∧ (∀ a, t.memWord a = s.memWord a) ∧ t.ext = s.ext ∧ t.pc = s.pc ∧
    t.instructionsExecuted = s.instructionsExecuted

end Sys2Proof.Machine
end

