-- ==== Sys2Proof/Certificates/Slice0/Obligations.lean ====
section
/-! DEFINITION. The statements for the provers. Each docstring names the rule of spec/ it formalises; "D<n>" is a
decision of spec/92_eei_decisions.md and "log <n>" a file of notes/assumptions/. -/

open Sys2Proof Sys2Proof.Machine

/-! ## Encoding -/

/-- One word of each instruction, written out from the spec's encodings, with ignored bits set in some
(30_encoding.md section 3, 95_test_vectors.md L1-1 and 2.1). The opcode numbers are the spec's decision D2 (log 2). -/
def Obligations.SpecWordsDecode : Prop :=
  decode 0b0000000_000_001_010_0000000000000_000#32 = .ok (.add 1 2 0) ∧
  decode 0b0000000_001_001_010_0000000000000_100#32 = .ok (.nand 1 2 4) ∧
  decode 0b0000000_010_000_001_0000000000000110#32 = .ok (.lw 0 1 6) ∧
  decode 0b0000000_011_000_011_0000000000001000#32 = .ok (.sw 0 3 8) ∧
  decode 0b0000000_100_000_000_1111111111111101#32 = .ok (.beq 0 0 (-3)) ∧
  decode 0b0000000_101_100_111_1010101111001101#32 = .ok (.jalr 4 7) ∧
  decode 0b0000000_110_111_111_1111111111111111#32 = .ok .halt ∧
  decode 0b0000000_111_000_000_0000000000000000#32 = .ok .noop

/-- The extraction primitive and its three uses (30_encoding.md R68). -/
def Obligations.TakeFieldSplitsExactly : Prop :=
  (∀ (v : Int) (shift : Nat),
    (takeField v shift).1 = v / 2 ^ shift ∧
    (takeField v shift).1 * 2 ^ shift + (takeField v shift).2 = v ∧
    0 ≤ (takeField v shift).2 ∧ (takeField v shift).2 < 2 ^ shift) ∧
  ∀ w : Word,
    takeField w.toInt 22 = (opField w, below22 w) ∧
    takeField (below22 w) 19 = (regAField w, below19 w) ∧
    takeField (below19 w) 16 = (regBField w, low16 w)

/-- regA is `instr[21:19]` and regB is `instr[18:16]`, each the next remainder shifted, and neither can be out of
range (30_encoding.md R69, R70). -/
def Obligations.RegisterFieldsAreBitSlices : Prop :=
  ∀ w : Word,
    below22 w = (w.extractLsb 21 0).toNat ∧ 0 ≤ below22 w ∧ below22 w < 2 ^ 22 ∧
    regAField w = below22 w / 2 ^ 19 ∧ regAField w = (w.extractLsb 21 19).toNat ∧
    0 ≤ regAField w ∧ regAField w ≤ 7 ∧ ((regOfField (regAField w)).val : Int) = regAField w ∧
    below19 w = (w.extractLsb 18 0).toNat ∧
    regBField w = below19 w / 2 ^ 16 ∧ regBField w = (w.extractLsb 18 16).toNat ∧
    0 ≤ regBField w ∧ regBField w ≤ 7 ∧ ((regOfField (regBField w)).val : Int) = regBField w

/-- A word is a BadOpcode exactly when its 22-bit arithmetic shift lies outside 0 to 7, which is exactly when bits
31:25 are not all 0; otherwise the value is bits 24:22 (30_encoding.md section 2). The second half is the spec's own
inference ("derived") in its rule on the opcode. -/
def Obligations.BadOpcodeExactlyWhenTopBitsSet : Prop :=
  ∀ w : Word,
    -512 ≤ opField w ∧ opField w ≤ 511 ∧
    (decode w = .error .badOpcode ↔ opField w < 0 ∨ 7 < opField w) ∧
    (decode w = .error .badOpcode ↔ w.extractLsb 31 25 ≠ 0) ∧
    (w.extractLsb 31 25 = 0 → opField w = (w.extractLsb 24 22).toNat)

/-- destReg is the whole low field: 0 to 7 decodes to that register, anything else is a BadDestReg
(30_encoding.md R72). -/
def Obligations.DestRegAboveSevenRejected : Prop :=
  ∀ w : Word,
    (7 < low16 w ↔ w.extractLsb 15 3 ≠ 0) ∧
    (opcodeOf w = some .add →
      (low16 w ≤ 7 → ∃ rD : Reg, (rD.val : Int) = low16 w ∧
        decode w = .ok (.add (regOfField (regAField w)) (regOfField (regBField w)) rD)) ∧
      (7 < low16 w → decode w = .error .badDestReg)) ∧
    (opcodeOf w = some .nand →
      (low16 w ≤ 7 → ∃ rD : Reg, (rD.val : Int) = low16 w ∧
        decode w = .ok (.nand (regOfField (regAField w)) (regOfField (regBField w)) rD)) ∧
      (7 < low16 w → decode w = .error .badDestReg))

/-- The offset of LW, SW and BEQ is the low field sign-extended, unscaled, and no pattern of it is illegal
(30_encoding.md R73). -/
def Obligations.OffsetIsSignExtendedLowField : Prop :=
  (∀ u : Nat, u < 2 ^ 16 →
    sext16 u = (if u.testBit 15 then (u : Int) - 2 ^ 16 else (u : Int)) ∧ sext16 u = (BitVec.ofNat 16 u).toInt ∧
    -32768 ≤ sext16 u ∧ sext16 u ≤ 32767) ∧
  sext16 0x7FFF = 32767 ∧ sext16 0x8000 = -32768 ∧ sext16 0xFFFF = -1 ∧ sext16 0x0000 = 0 ∧
  ∀ w : Word,
    low16 w = (w.extractLsb 15 0).toNat ∧
    (opcodeOf w = some .lw →
      decode w = .ok (.lw (regOfField (regAField w)) (regOfField (regBField w)) (sext16 (low16 w)))) ∧
    (opcodeOf w = some .sw →
      decode w = .ok (.sw (regOfField (regAField w)) (regOfField (regBField w)) (sext16 (low16 w)))) ∧
    (opcodeOf w = some .beq →
      decode w = .ok (.beq (regOfField (regAField w)) (regOfField (regBField w)) (sext16 (low16 w))))

/-- Bits 15:0 of a JALR and bits 21:0 of a HALT or NOOP may hold any value (30_encoding.md R74, R75). -/
def Obligations.IgnoredFieldsAreNotRead : Prop :=
  (∀ w : Word, opcodeOf w = some .jalr →
    decode w = .ok (.jalr (regOfField (regAField w)) (regOfField (regBField w)))) ∧
  (∀ w w' : Word, opcodeOf w = some .jalr → w'.extractLsb 31 16 = w.extractLsb 31 16 → decode w' = decode w) ∧
  (∀ w : Word, opcodeOf w = some .halt → decode w = .ok .halt) ∧
  (∀ w : Word, opcodeOf w = some .noop → decode w = .ok .noop) ∧
  ∀ w w' : Word, (opcodeOf w = some .halt ∨ opcodeOf w = some .noop) →
    w'.extractLsb 31 22 = w.extractLsb 31 22 → decode w' = decode w

/-- A word spells a row's instruction exactly when `(w & mask) == match` (30_encoding.md section 3). The opcode
numbers are the spec's decision D2 (log 2). -/
def Obligations.OpcodeTableMatchesAndMasks : Prop :=
  ∀ w : Word,
    ((∃ a b d, decode w = .ok (.add a b d)) ↔ w &&& 0xFFC0FFF8#32 = 0x00000000#32) ∧
    ((∃ a b d, decode w = .ok (.nand a b d)) ↔ w &&& 0xFFC0FFF8#32 = 0x00400000#32) ∧
    ((∃ a b imm, decode w = .ok (.lw a b imm)) ↔ w &&& 0xFFC00000#32 = 0x00800000#32) ∧
    ((∃ a b imm, decode w = .ok (.sw a b imm)) ↔ w &&& 0xFFC00000#32 = 0x00C00000#32) ∧
    ((∃ a b imm, decode w = .ok (.beq a b imm)) ↔ w &&& 0xFFC00000#32 = 0x01000000#32) ∧
    ((∃ a b, decode w = .ok (.jalr a b)) ↔ w &&& 0xFFC00000#32 = 0x01400000#32) ∧
    (decode w = .ok .halt ↔ w &&& 0xFFC00000#32 = 0x01800000#32) ∧
    (decode w = .ok .noop ↔ w &&& 0xFFC00000#32 = 0x01C00000#32)

/-- The BadDestReg words are exactly the ADD and NAND words with bits 15:3 not all 0; with
`BadOpcodeExactlyWhenTopBitsSet` these are all the words that fail to decode (30_encoding.md section 5, the spec's own
inference). The opcode numbers 0 and 1 are decision D2 (log 2); that BadOpcode comes first is decision D18 (log 21). -/
def Obligations.BadDestRegExactly : Prop :=
  ∀ w : Word,
    (decode w = .error .badDestReg ↔
      w.extractLsb 31 25 = 0 ∧ (w.extractLsb 24 22 = 0 ∨ w.extractLsb 24 22 = 1) ∧ w.extractLsb 15 3 ≠ 0) ∧
    (w.extractLsb 31 25 ≠ 0 → w.extractLsb 15 3 ≠ 0 → decode w = .error .badOpcode)

/-- Decoding an encoded instruction gives it back, every operand at every value its field admits
(30_encoding.md section 6; the encoder is the spec's own construction). -/
def Obligations.DecodeEncodeRoundTrip : Prop :=
  ∀ i : Instr, i.wellFormed = true → decode (encode i) = .ok i

/-- A word that decodes is well-formed and encodes back to itself with the ignored bits cleared (30_encoding.md
section 6, the spec's own inference). -/
def Obligations.EncodeDecodeClearsIgnoredBits : Prop :=
  ∀ (w : Word) (i : Instr), decode w = .ok i →
    i.wellFormed = true ∧ encode i = w &&& ~~~ (ignoredBits i.opcode)

/-- An assembled instruction is a word that decodes to it, an offset outside the range is rejected, a data word is its
value modulo 2^32, and a taken `beq` at P whose offset comes from the label L goes to L (30_encoding.md section 7).
The notation is the spec's decision D11 (log 19) and the target's range its decision D6 (log 9). -/
def Obligations.AssemblyMeansWhatItSays : Prop :=
  (∀ i : Instr, i.wellFormed = true → ∃ w, (Stmt.instr i).assemble = some w ∧ decode w = .ok i) ∧
  (∀ (rA rB : Reg) (imm : Int), imm < -32768 ∨ 32767 < imm →
    (Stmt.instr (.lw rA rB imm)).assemble = none ∧ (Stmt.instr (.sw rA rB imm)).assemble = none ∧
    (Stmt.instr (.beq rA rB imm)).assemble = none) ∧
  (∀ v : Int, -(2 ^ 31) ≤ v → v < 2 ^ 32 →
    ∃ w, (Stmt.fill v).assemble = some w ∧ ((w.toNat : Int) - v) % 2 ^ 32 = 0) ∧
  ∀ (rA rB : Reg) (L : Nat) (s : State), s.reg rA = s.reg rB → L ≤ 65536 →
    ∃ t, exec (.beq rA rB (branchOffset s.pc L)) s = .next t ∧ t.pc = L

/-! ## The start of a run -/

/-- Every register is 0 when a run starts (10_state.md R23). -/
def Obligations.RegistersStartAtZero : Prop :=
  (∀ r, State.reset.reg r = 0x00000000) ∧
  ∀ (img : List Word) (s : State), State.load img = .next s → ∀ r, s.reg r = 0x00000000

/-- What reset leaves, given an image, and that an image too large starts no run (70_reset_and_hazards.md section 1).
The words past the image (D4, log 1), the refusal (D12, log 17), that this is reset (D21, log 6), the count's start
(D8, log 10) are decisions of the spec. -/
def Obligations.LoadStartsTheRun : Prop :=
  (∀ img : List Word, img.length ≤ 65536 → ∃ s, State.load img = .next s ∧
    (∀ r, s.reg r = 0) ∧ s.pc = 0 ∧ s.ext = img.length ∧ s.status = .running ∧ s.instructionsExecuted = 0 ∧
    (∀ (k : Nat) (h : k < img.length), s.memWord k = img[k]) ∧
    (∀ k : Nat, img.length ≤ k → s.memWord k = 0)) ∧
  (∀ img : List Word, 65536 < img.length → State.load img = .refused .imageTooLarge) ∧
  State.load [] = .next State.reset

/-- The model's invariant (`StepKeepsInvariant`) holds at reset and at the start of every run. Its canonical form of
memory and its "listed words lie below `ext`" are the model's choice (DESIGN CHOICE, logs 7 and 8); that the ranges of
pc and `ext` are 0 to 65536 is the spec's (10_state.md sections 3 and 4, D25). -/
def Obligations.InvariantAtReset : Prop :=
  State.reset.Inv ∧ ∀ (img : List Word) (s : State), State.load img = .next s → s.Inv

/-! ## ADD and NAND -/

/-- ADD completes: `x[rA] <- x[rD] + x[rB]` modulo 2^32, from the old values, and nothing else but pc and the count
(40_alu.md section 2). The wrap is the spec's decision D3 (log 3), the count its decision D8 (log 10). -/
def Obligations.AddWritesRegA : Prop :=
  ∀ (rA rB rD : Reg) (s : State), ∃ t, exec (.add rA rB rD) s = .next t ∧
    t.reg rA = word32 ((s.reg rD).toInt + (s.reg rB).toInt) ∧
    (t.reg rA).toNat = ((s.reg rD).toNat + (s.reg rB).toNat) % 2 ^ 32 ∧
    SameRegsBut rA s t ∧ SameMemory s t ∧ t.pc = s.pc + 1 ∧
    t.instructionsExecuted = s.instructionsExecuted + 1

/-- NAND completes: bit `k` of `x[rD]` is NOT (bit `k` of `x[rA]` AND bit `k` of `x[rB]`), from the old values, rD = 0
included, and the other registers, memory, `ext` and the status stay (40_alu.md R97). The count is the subject of
`StepCountsCompletedInstructions`. -/
def Obligations.NandIsBitwise : Prop :=
  ∀ (rA rB rD : Reg) (s : State), ∃ t, exec (.nand rA rB rD) s = .next t ∧
    t.reg rD = ~~~ (s.reg rA &&& s.reg rB) ∧
    (∀ k : Nat, k < 32 → (t.reg rD).getLsbD k = !((s.reg rA).getLsbD k && (s.reg rB).getLsbD k)) ∧
    SameRegsBut rD s t ∧ SameMemory s t ∧ t.pc = s.pc + 1

/-! ## LW and SW -/

/-- The translator gives the exact sum when it lies in [0, 65536) and MemAddress otherwise, and for an encodable
offset the 32-bit wrapped sum gives the same (41_memory.md section 1). The exact sum is the spec's decision D5 and the
agreement its own inference (log 15). -/
def Obligations.TranslatorIsExactAndBounded : Prop :=
  (∀ (base : Word) (imm : Int) (a : Nat),
    translateAddr base imm = .ok a ↔ (a : Int) = base.toInt + imm ∧ a < 65536) ∧
  (∀ (base : Word) (imm : Int), base.toInt + imm < 0 ∨ 65536 ≤ base.toInt + imm →
    translateAddr base imm = .error .memAddress) ∧
  ∀ (base : Word) (imm : Int), -32768 ≤ imm → imm ≤ 32767 → translateAddrWrapped base imm = translateAddr base imm

/-- LW completes at every address in [0, 65536), `ext` or not: `x[rB] <- mem[x[rA] + imm]`, and nothing else but pc
and the count (41_memory.md section 2; count: D8, log 10). -/
def Obligations.LwLoadsTheWord : Prop :=
  ∀ (rA rB : Reg) (imm : Int) (s : State), 0 ≤ (s.reg rA).toInt + imm → (s.reg rA).toInt + imm < 65536 →
    ∃ t, exec (.lw rA rB imm) s = .next t ∧
      t.reg rB = s.memWord ((s.reg rA).toInt + imm).toNat ∧
      SameRegsBut rB s t ∧ SameMemory s t ∧ t.pc = s.pc + 1 ∧
      t.instructionsExecuted = s.instructionsExecuted + 1

/-- SW completes at every address the translator gives: the word `x[rB]` at that index and no other word changes,
`ext` grows to cover it and never otherwise, and nothing else but pc and the count (41_memory.md section 3; count: D8,
log 10; skipped words keep their value: D26, log 1). The premise `mem.wf` is the canonical form of the model's memory
(DESIGN CHOICE, log 7). -/
def Obligations.SwStoresTheWord : Prop :=
  ∀ (rA rB : Reg) (imm : Int) (s : State), s.mem.wf → ∀ a : Nat, translateAddr (s.reg rA) imm = .ok a →
    ∃ t, exec (.sw rA rB imm) s = .next t ∧
      t.memWord a = s.reg rB ∧ (∀ b, b ≠ a → t.memWord b = s.memWord b) ∧
      (s.ext ≤ a → t.ext = a + 1) ∧ (a < s.ext → t.ext = s.ext) ∧
      SameRegs s t ∧ t.status = s.status ∧ t.pc = s.pc + 1 ∧
      t.instructionsExecuted = s.instructionsExecuted + 1

/-- LW and SW with an address outside [0, 65536) take the BoundsError MemAddress with none of their effect
(41_memory.md sections 2 and 3, 60_exceptions.md section 2; that pc and the count stay: D8 and D9, logs 10 and 5). -/
def Obligations.BadAddressFaultsWithoutEffect : Prop :=
  ∀ (rA rB : Reg) (imm : Int) (s : State), (s.reg rA).toInt + imm < 0 ∨ 65536 ≤ (s.reg rA).toInt + imm →
    (∃ t, exec (.lw rA rB imm) s = .next t ∧ FaultedFrom s (.boundsError .memAddress) t) ∧
    ∃ t, exec (.sw rA rB imm) s = .next t ∧ FaultedFrom s (.boundsError .memAddress) t

/-! ## BEQ and JALR -/

/-- BEQ completes: to `pc + imm`, not `pc + 1 + imm`, when the two patterns are identical and the target lies in
[0, 65536]; to `pc + 1` when they differ, at every pc a fetch can have; and it writes nothing but pc and the count
(42_control.md section 2). The range is the spec's decision D6 (log 9), the count its decision D8 (log 10). -/
def Obligations.BeqBranchesOnEquality : Prop :=
  ∀ (rA rB : Reg) (imm : Int) (s : State),
    (s.reg rA = s.reg rB → 0 ≤ s.pc + imm → s.pc + imm ≤ 65536 →
      ∃ t, exec (.beq rA rB imm) s = .next t ∧ (t.pc : Int) = s.pc + imm ∧
        SameRegs s t ∧ SameMemory s t ∧ t.instructionsExecuted = s.instructionsExecuted + 1) ∧
    (s.reg rA ≠ s.reg rB → s.pc < 65536 →
      ∃ t, exec (.beq rA rB imm) s = .next t ∧ t.pc = s.pc + 1 ∧
        SameRegs s t ∧ SameMemory s t ∧ t.instructionsExecuted = s.instructionsExecuted + 1)

/-- JALR with rA and rB different completes when `x[rA]`, read signed, lies in [0, 65536]: the link `pc + 1` in
`x[rB]`, pc at the old `x[rA]`, and nothing else but the count (42_control.md section 3). The range is the spec's
decision D6 (log 9), the count its decision D8 (log 10). -/
def Obligations.JalrLinksAndJumps : Prop :=
  ∀ (rA rB : Reg) (s : State), rA ≠ rB → 0 ≤ (s.reg rA).toInt → (s.reg rA).toInt ≤ 65536 →
    ∃ t, exec (.jalr rA rB) s = .next t ∧
      t.reg rB = word32 (s.pc + 1) ∧ (t.pc : Int) = (s.reg rA).toInt ∧
      SameRegsBut rB s t ∧ SameMemory s t ∧ t.instructionsExecuted = s.instructionsExecuted + 1

/-- JALR with rA = rB = r leaves `x[r] = pc` and jumps to `pc`; the run that reaches one runs it for ever
(42_control.md R132). -/
def Obligations.AliasedJalrLoopsInPlace : Prop :=
  (∀ (r : Reg) (s : State), s.pc ≤ 65536 →
    ∃ t, exec (.jalr r r) s = .next t ∧ t.reg r = word32 s.pc ∧ t.pc = s.pc ∧
      SameRegsBut r s t ∧ SameMemory s t) ∧
  ∀ (r : Reg) (s : State), s.AboutToRun (.jalr r r) → ∀ k : Nat,
    ∃ t : State, Host.Core.run core (k + 1) s = .next t ∧ t.reg r = word32 s.pc ∧
      t.pc = s.pc ∧ t.status = .running ∧ SameRegsBut r s t ∧ SameMemory s t

/-- A taken BEQ or a JALR whose target lies outside [0, 65536] takes the BoundsError PcTarget with none of its
effect, the link included (42_control.md sections 1 to 3; the fault is the spec's decision D6, log 9; that pc and the
count stay: D8 and D9, logs 10 and 5). -/
def Obligations.BadTargetFaultsWithoutEffect : Prop :=
  (∀ (rA rB : Reg) (imm : Int) (s : State), s.reg rA = s.reg rB → s.pc + imm < 0 ∨ 65536 < s.pc + imm →
    ∃ t, exec (.beq rA rB imm) s = .next t ∧ FaultedFrom s (.boundsError .pcTarget) t) ∧
  ∀ (rA rB : Reg) (s : State), rA ≠ rB → (s.reg rA).toInt < 0 ∨ 65536 < (s.reg rA).toInt →
    ∃ t, exec (.jalr rA rB) s = .next t ∧ FaultedFrom s (.boundsError .pcTarget) t

/-- `beq r r 0` is an unconditional self-loop: after any number of steps only the count has changed (42_control.md
section 2, 70_reset_and_hazards.md section 2; count: D8, log 10). -/
def Obligations.BeqSelfLoopNeverEnds : Prop :=
  ∀ (r : Reg) (s : State), s.AboutToRun (.beq r r 0) → ∀ k : Nat,
    Host.Core.run core k s = .next { s with instructionsExecuted := s.instructionsExecuted + k }

/-! ## HALT and NOOP -/

/-- HALT completes: `pc + 1` is committed and counted and the status is Halted, nothing else changes, and no step
follows (43_system.md section on HALT). The pc is the spec's decision D7 (log 13), the count its decision D8
(log 10), the host's name for "no step" the model's choice (log 4). -/
def Obligations.HaltEndsTheRun : Prop :=
  ∀ s : State, ∃ t, exec .halt s = .next t ∧ t.status = .halted ∧ t.pc = s.pc + 1 ∧ SameRegs s t ∧
    (∀ a, t.memWord a = s.memWord a) ∧ t.ext = s.ext ∧
    t.instructionsExecuted = s.instructionsExecuted + 1 ∧ step t = .fault .runEnded

/-- NOOP completes: pc advances and nothing else changes but the count (43_system.md section on NOOP; count: D8,
log 10). -/
def Obligations.NoopOnlyAdvances : Prop :=
  ∀ s : State, ∃ t, exec .noop s = .next t ∧ t.pc = s.pc + 1 ∧ SameRegs s t ∧ SameMemory s t ∧
    t.instructionsExecuted = s.instructionsExecuted + 1

/-! ## The step -/

/-- A step runs the decoded instruction: where the word at pc decodes to `i`, the step is `exec i`, with nothing added
around it (70_reset_and_hazards.md section 2). -/
def Obligations.StepRunsTheDecodedInstruction : Prop :=
  ∀ (s : State) (i : Instr), s.status = .running → s.pc < s.ext → s.pc < 65536 →
    decode (s.memWord s.pc) = .ok i → step s = exec i s

/-- The other outcomes of a step: a terminal state has none, which is the model's outcome `fault runEnded` (log 4); at
`pc >= ext` the run ends as ExhaustedMemory with nothing fetched or counted; a fetched word that does not decode is a
DecodeError with no effect (70_reset_and_hazards.md section 2, 60_exceptions.md section 2). `pc >= ext` is the spec's
decision D19 (log 11), the unchanged pc and count its decisions D8 and D9 (logs 10 and 5). -/
def Obligations.StepEndsTheRun : Prop :=
  (∀ s : State, s.status ≠ .running → step s = .fault .runEnded) ∧
  ∀ s : State, s.status = .running →
    (s.ext ≤ s.pc → ∃ t, step s = .next t ∧ t.status = .exhaustedMemory ∧ SameRegs s t ∧ t.mem = s.mem ∧
      t.ext = s.ext ∧ t.pc = s.pc ∧ t.instructionsExecuted = s.instructionsExecuted) ∧
    ∀ e, s.pc < s.ext → s.pc < 65536 → decode (s.memWord s.pc) = .error e →
      ∃ t, step s = .next t ∧ FaultedFrom s (.decodeError e) t

/-- In a terminal state no step follows, so the status and the whole state are final, and the report gives the final
state and the count (10_state.md R34). -/
def Obligations.TerminalStatesAreFinal : Prop :=
  ∀ s : State, s.status ≠ .running →
    (∀ t, step s ≠ .next t) ∧ (∀ t, RunsTo s t → t = s) ∧
    s.report = some (s.snapshot, s.status) ∧
    s.snapshot.instructionsExecuted = s.instructionsExecuted ∧ s.snapshot.pc = s.pc ∧
    s.snapshot.registers = s.regs ∧ s.snapshot.memoryExtent = s.ext ∧
    s.snapshot.memory = (List.range s.ext).map s.memWord

/-- How the status leaves Running: to Halted exactly by a HALT, to ExhaustedMemory exactly when pc has reached `ext`,
to a DecodeError exactly when the fetched word does not decode, and to a BoundsError only by LW or SW (MemAddress), BEQ
or JALR (PcTarget) (70_reset_and_hazards.md section 2, 60_exceptions.md section 1). The comparison `>=` is the spec's
decision D19 (log 11) and PcTarget its decision D6 (log 9). -/
def Obligations.StatusLeavesRunningOnlyAsListed : Prop :=
  ∀ s t : State, step s = .next t →
    s.status = .running ∧
    (t.status = .halted ↔ s.AboutToRun .halt) ∧
    (t.status = .exhaustedMemory ↔ s.ext ≤ s.pc) ∧
    (∀ e, t.status = .faulted (.decodeError e) ↔ s.Fetches ∧ decode (s.memWord s.pc) = .error e) ∧
    (t.status = .faulted (.boundsError .memAddress) →
      ∃ rA rB imm, s.AboutToRun (.lw rA rB imm) ∨ s.AboutToRun (.sw rA rB imm)) ∧
    (t.status = .faulted (.boundsError .pcTarget) →
      (∃ rA rB imm, s.AboutToRun (.beq rA rB imm) ∧ s.reg rA = s.reg rB) ∨
        ∃ rA rB, s.AboutToRun (.jalr rA rB) ∧ rA ≠ rB)

/-- A step that faults changes the status and nothing else (60_exceptions.md section 2). That pc stays is the spec's
decision D9 (log 5), that the count stays its decision D8 (log 10). -/
def Obligations.FaultsCommitNothing : Prop :=
  ∀ (s t : State) (f : RunFault), step s = .next t → t.status = .faulted f →
    t = { s with status := .faulted f }

/-- The count grows by exactly 1 for each instruction that completes, HALT included, and by nothing at a fault or at
the end of memory (10_state.md section 5, the spec's decision D8, log 10). -/
def Obligations.StepCountsCompletedInstructions : Prop :=
  ∀ s t : State, step s = .next t →
    ((t.status = .running ∨ t.status = .halted) → t.instructionsExecuted = s.instructionsExecuted + 1) ∧
    (t.status = .exhaustedMemory → t.instructionsExecuted = s.instructionsExecuted) ∧
    ∀ f, t.status = .faulted f → t.instructionsExecuted = s.instructionsExecuted

/-- The count is no operand: two states that differ only in it step alike, and differ only in it afterwards
(10_state.md section 5, 43_system.md on other system instructions; the count is decision D8, log 10). -/
def Obligations.CountIsNeverRead : Prop :=
  ∀ (s : State) (n : Nat),
    (∀ t, step s = .next t → ∃ m, step { s with instructionsExecuted := n } = .next { t with instructionsExecuted := m }) ∧
    (∀ f, step s = .fault f → step { s with instructionsExecuted := n } = .fault f) ∧
    ∀ r, step s ≠ .refused r

/-! ## The register file -/

/-- The register file control table: the read data are the registers the table names; an instruction writes only the
register the table gives it, with `we = 1` and the write data `wd`, and with `we = 0` when it faults; and its outcome
depends on no register but the ones its read ports read (10_state.md section 2). The ports are the spec's decision D14
(log 27); what `wd` is for each opcode is the subject of the instructions' own statements. -/
def Obligations.RegisterFileControl : Prop :=
  (∀ (i : Instr) (s : State) (q : Reg),
    (src1Reg i = some q → src1 i s = s.reg q) ∧ (src2Reg i = some q → src2 i s = s.reg q)) ∧
  (∀ (i : Instr) (s t : State), s.status = .running → exec i s = .next t →
    (∀ q, writeReg i ≠ some q → t.reg q = s.reg q) ∧
    (∀ f, t.status = .faulted f → writeEnable i (raised i s) = false ∧ SameRegs s t) ∧
    ∀ q, writeReg i = some q → (∀ f, t.status ≠ .faulted f) →
      writeEnable i (raised i s) = true ∧ t.reg q = writeData i s) ∧
  ∀ (i : Instr) (s s' t t' : State),
    s'.pc = s.pc → s'.mem = s.mem → s'.ext = s.ext → s'.status = s.status →
    s'.instructionsExecuted = s.instructionsExecuted →
    (∀ q, src1Reg i = some q ∨ src2Reg i = some q → s'.reg q = s.reg q) →
    s.status = .running → exec i s = .next t → exec i s' = .next t' →
    t'.pc = t.pc ∧ t'.mem = t.mem ∧ t'.ext = t.ext ∧ t'.status = t.status ∧
      t'.instructionsExecuted = t.instructionsExecuted ∧
      ∀ q, writeReg i = some q → (∀ f, t.status ≠ .faulted f) → t'.reg q = t.reg q

/-! ## Memory over a run -/

/-- A LW of index `a` returns the value of the latest SW to `a` earlier in the run, and where no SW wrote `a` its
content at the start of the run; every access takes effect before the next fetch (20_memory.md R54). The premise
`mem.wf` is the canonical form of the model's memory (DESIGN CHOICE, log 7), which every step keeps. -/
def Obligations.LoadReturnsLatestStore : Prop :=
  (∀ (s s₁ t : State) (rA rB : Reg) (imm : Int) (a : Nat), s.mem.wf → s.AboutToRun (.sw rA rB imm) →
    translateAddr (s.reg rA) imm = .ok a → step s = .next s₁ → QuietRun a s₁ t →
    t.memWord a = s.reg rB ∧
    ∀ (rA' rB' : Reg) (imm' : Int), t.AboutToRun (.lw rA' rB' imm') → translateAddr (t.reg rA') imm' = .ok a →
      ∃ u, step t = .next u ∧ u.reg rB' = s.reg rB) ∧
  ∀ (img : List Word) (s₀ t : State) (a : Nat), State.load img = .next s₀ → QuietRun a s₀ t →
    t.memWord a = s₀.memWord a ∧
    ∀ (rA' rB' : Reg) (imm' : Int), t.AboutToRun (.lw rA' rB' imm') → translateAddr (t.reg rA') imm' = .ok a →
      ∃ u, step t = .next u ∧ u.reg rB' = s₀.memWord a

/-- Each step fetches `mem[pc]` from the current state and against the current `ext`: a word stored at index `a` is
live from then on and is the instruction that runs when pc next comes to `a`, at once or later, and a SW that raises
`ext` lets the very next step fetch any word below the new one (20_memory.md R56). The premise `mem.wf` is the
canonical form of the model's memory (DESIGN CHOICE, log 7), which every step keeps. -/
def Obligations.StoredWordsAreFetched : Prop :=
  (∀ (u : State) (i : Instr), u.Fetches → decode (u.memWord u.pc) = .ok i → step u = exec i u) ∧
  ∀ (s s₁ t : State) (rA rB : Reg) (imm : Int) (a : Nat), s.mem.wf → s.AboutToRun (.sw rA rB imm) →
    translateAddr (s.reg rA) imm = .ok a → step s = .next s₁ →
    (s.ext ≤ a → s₁.ext = a + 1 ∧ (s₁.pc ≤ a → s₁.Fetches)) ∧
    (QuietRun a s₁ t → t.status = .running → t.pc = a →
      a < t.ext ∧
      (∀ i, decode (s.reg rB) = .ok i → step t = exec i t) ∧
      ∀ e, decode (s.reg rB) = .error e → ∃ u, step t = .next u ∧ u.status = .faulted (.decodeError e))

/-- Only a SW changes memory, and only the word it stores to; only a SW changes `ext`, which becomes the stored index
plus 1 and never shrinks along a run (10_state.md section 4). The premise `mem.wf` is the canonical form of the
model's memory (DESIGN CHOICE, log 7). -/
def Obligations.OnlyStoresChangeMemoryAndExtent : Prop :=
  (∀ (s t : State) (a : Nat), s.mem.wf → step s = .next t → t.memWord a ≠ s.memWord a → s.StoresTo a) ∧
  (∀ s t : State, step s = .next t → t.ext ≠ s.ext →
    ∃ a, s.StoresTo a ∧ s.ext ≤ a ∧ t.ext = a + 1) ∧
  ∀ s t : State, RunsTo s t → s.ext ≤ t.ext

/-! ## Invariants -/

/-- Every step keeps pc and `ext` in [0, 65536] (10_state.md sections 3 and 4, the spec's decisions D25 and, for a
branch's target, D6, log 9), and it keeps the model's own form of memory: canonical, with every listed word below
`ext`. That form is the model's choice (DESIGN CHOICE, logs 7 and 8; it holds what D24 says, "all written words lie
below `ext`"). -/
def Obligations.StepKeepsInvariant : Prop :=
  ∀ s t : State, s.Inv → step s = .next t → t.Inv

/-- Every state a run reaches from a loaded image meets the invariant and, while it is Running, has a next state: no
run leaves the memory by a fetch, stops for want of a meaning, or ends otherwise than in a terminal status
(70_reset_and_hazards.md section 2). The invariant's form of memory is the model's choice (DESIGN CHOICE, logs 7 and
8). `RunningInvariantStatesStep` says the same of one step. -/
def Obligations.RunningStatesAlwaysStep : Prop :=
  ∀ (img : List Word) (s₀ s : State), State.load img = .next s₀ → RunsTo s₀ s →
    s.Inv ∧ (s.status = .running → ∃ t, step s = .next t)

/-! ## The status register and the reporter -/

/-- The numeric fields of the status register, 0 in kind and cause exactly when not Faulted, and no two statuses with
the same fields (10_state.md section 5; the codes are the spec's decision D10, log 14). -/
def Obligations.StatusCodes : Prop :=
  (Status.running.stateCode = 0 ∧ Status.halted.stateCode = 1 ∧ Status.exhaustedMemory.stateCode = 2 ∧
    ∀ f, (Status.faulted f).stateCode = 3) ∧
  (∀ c, (Status.faulted (.decodeError c)).kindCode = 1) ∧ (∀ c, (Status.faulted (.boundsError c)).kindCode = 2) ∧
  (Status.faulted (.decodeError .badOpcode)).causeCode = 1 ∧
  (Status.faulted (.decodeError .badDestReg)).causeCode = 2 ∧
  (Status.faulted (.boundsError .memAddress)).causeCode = 3 ∧
  (Status.faulted (.boundsError .pcTarget)).causeCode = 4 ∧
  (∀ st : Status, (st.stateCode ≠ 3 → st.kindCode = 0 ∧ st.causeCode = 0) ∧
    (st.stateCode = 3 → st.kindCode ≠ 0 ∧ st.causeCode ≠ 0)) ∧
  ∀ st st' : Status, st.stateCode = st'.stateCode → st.kindCode = st'.kindCode → st.causeCode = st'.causeCode →
    st = st'

/-- Every step exposes the snapshot of the state it leads to, its writes and next pc committed: pc, registers, the
live words, `ext` and the count (60_exceptions.md section 6; the timing is the spec's decision D23, log 16). -/
def Obligations.StepExposesTheCommittedState : Prop :=
  ∀ s t : State, step s = .next t → ∃ p, stepSnapshot s = some p ∧
    p.pc = t.pc ∧ (∀ r : Reg, p.registers.get r = t.reg r) ∧ p.memoryExtent = t.ext ∧
    p.instructionsExecuted = t.instructionsExecuted ∧ p.memory.length = t.ext ∧
    ∀ k : Nat, k < t.ext → p.memory[k]? = some (t.memWord k)

/-- The final report loses nothing: two states that meet the invariant with the same snapshot and the same status are
the same state (70_reset_and_hazards.md section 2; "all written words lie below `ext`" is the spec's decision D24 and
the words above it its decision D4, log 1). The invariant's form of memory is the model's choice (DESIGN CHOICE, logs 7
and 8). -/
def Obligations.ReportDeterminesTheState : Prop :=
  ∀ s t : State, s.Inv → t.Inv → s.snapshot = t.snapshot → s.status = t.status → s = t

/-! ## The PC logic, and the step out of a Running state -/

/-- The next pc per opcode, of every instruction that completes: it is the PC logic's `next_pc`, namely `pc + 1` for
ADD, NAND, LW, SW, NOOP and HALT (after which the run stops), `pc + imm` or `pc + 1` for BEQ, and for JALR `x[rA]` after
the alias write, which is `pc` where rA = rB (42_control.md R126). -/
def Obligations.NextPcPerOpcode : Prop :=
  (∀ (i : Instr) (s t : State), exec i s = .next t → (∀ f, t.status ≠ .faulted f) →
    (t.pc : Int) = nextPc i s.pc (src1 i s) (src2 i s)) ∧
  (∀ (i : Instr) (s t : State), exec i s = .next t → (∀ f, t.status ≠ .faulted f) →
    i.opcode ≠ .beq → i.opcode ≠ .jalr → t.pc = s.pc + 1) ∧
  (∀ (rA rB : Reg) (imm : Int) (s t : State), exec (.beq rA rB imm) s = .next t → (∀ f, t.status ≠ .faulted f) →
    (t.pc : Int) = if s.reg rA = s.reg rB then s.pc + imm else (s.pc : Int) + 1) ∧
  (∀ (rA rB : Reg) (s t : State), exec (.jalr rA rB) s = .next t → (∀ f, t.status ≠ .faulted f) →
    (rA ≠ rB → (t.pc : Int) = (s.reg rA).toInt) ∧ (rA = rB → t.pc = s.pc)) ∧
  ∀ s t : State, exec .halt s = .next t → ∀ u, step t ≠ .next u

/-- Every Running state that meets the invariant has a next state: a step of it is no fault and no refusal
(70_reset_and_hazards.md section 2). The invariant's form of memory is the model's choice (DESIGN CHOICE, logs 7 and
8). With `InvariantAtReset` and `StepKeepsInvariant` it makes every run go on until a terminal status. -/
def Obligations.RunningInvariantStatesStep : Prop :=
  ∀ s : State, s.Inv → s.status = .running → ∃ t, step s = .next t
end

