-- ==== Sys2Proof/Laws/Decode.lean ====
section
/-! SUPPORT. The decoder's fields as arithmetic on the unsigned value of the word, and the opcode map's inverses. -/

namespace Sys2Proof

/-! ## Fields -/

theorem takeField_fst (v : Int) (n : Nat) : (takeField v n).1 = v / 2 ^ n := rfl

theorem takeField_snd (v : Int) (n : Nat) : (takeField v n).2 = v % 2 ^ n := by
  have := Int.mul_ediv_add_emod v (2 ^ n)
  simp only [takeField]
  rw [Int.mul_comm] at this
  omega

/-- The signed and the unsigned value of a word differ by a multiple of 2^32 (spec/00_scope.md R8). -/
theorem sval_eq (w : Word) : sval w = if w.toNat < 2 ^ 31 then (w.toNat : Int) else (w.toNat : Int) - 2 ^ 32 := by
  have := w.isLt
  rw [sval, BitVec.toInt_eq_toNat_cond]
  split <;> split <;> omega

theorem below22_eq (w : Word) : below22 w = ((w.toNat % 2 ^ 22 : Nat) : Int) := by
  have := w.isLt
  rw [below22, takeField_snd, sval_eq]
  split <;> omega

theorem regAField_eq (w : Word) : regAField w = ((w.toNat / 2 ^ 19 % 8 : Nat) : Int) := by
  rw [regAField, takeField_fst, below22_eq]
  omega

theorem below19_eq (w : Word) : below19 w = ((w.toNat % 2 ^ 19 : Nat) : Int) := by
  rw [below19, takeField_snd, below22_eq]
  omega

theorem regBField_eq (w : Word) : regBField w = ((w.toNat / 2 ^ 16 % 8 : Nat) : Int) := by
  rw [regBField, takeField_fst, below19_eq]
  omega

theorem low16_eq (w : Word) : low16 w = ((w.toNat % 2 ^ 16 : Nat) : Int) := by
  rw [low16, takeField_snd, below19_eq]
  omega

/-- Only a word below 2^25 has a value that `opcodeMap` could know. -/
theorem opField_eq (w : Word) (h : w.toNat < 2 ^ 25) : opField w = ((w.toNat / 2 ^ 22 : Nat) : Int) := by
  rw [opField, takeField_fst, sval_eq]
  split <;> omega

theorem opField_out (w : Word) (h : ¬ w.toNat < 2 ^ 25) : opField w < 0 ∨ 7 < opField w := by
  have := w.isLt
  rw [opField, takeField_fst, sval_eq]
  split <;> omega

/-- The register a field value below 8 selects has that value. -/
@[simp] theorem regOfField_ofNat (n : Nat) : (regOfField (n : Int)).val = n % 8 := rfl

@[simp] theorem regOfField_val (r : Reg) : regOfField ((r.val : Nat) : Int) = r := by
  apply Fin.ext
  simp [Nat.mod_eq_of_lt r.isLt]

/-! ## The opcode map -/

theorem opcodeMap_out {v : Int} (h : v < 0 ∨ 7 < v) : opcodeMap v = none := by
  unfold opcodeMap
  split
  · rw [List.getElem?_eq_none_iff]
    simp only [opcodeOrder, List.length_cons, List.length_nil]
    omega
  · rfl

@[simp] theorem opcodeMap_opVal (op : Opcode) : opcodeMap (opVal op) = some op := by cases op <;> rfl

theorem opVal_lt (op : Opcode) : opVal op < 8 := by cases op <;> decide

theorem opVal_of_opcodeMap {v : Int} {op : Opcode} (h : opcodeMap v = some op) : v = opVal op := by
  by_cases hv : v < 0 ∨ 7 < v
  · simp [opcodeMap_out hv] at h
  · obtain ⟨n, rfl⟩ : ∃ n : Nat, v = n := ⟨v.toNat, by omega⟩
    have : n < 8 := by omega
    interval_cases n <;> cases h <;> rfl

/-- An opcode stands in bits 24:22 with nothing above (spec/30_encoding.md R67). -/
theorem opcodeOf_iff (w : Word) (op : Opcode) :
    opcodeOf w = some op ↔ w.toNat / 2 ^ 22 = opVal op := by
  have hlt := opVal_lt op
  by_cases h : w.toNat < 2 ^ 25
  · rw [opcodeOf, opField_eq w h]
    refine ⟨fun e => ?_, fun e => ?_⟩
    · have := opVal_of_opcodeMap e
      omega
    · rw [e, opcodeMap_opVal]
  · rw [opcodeOf, opcodeMap_out (opField_out w h)]
    refine ⟨fun e => by simp at e, fun e => ?_⟩
    omega

theorem opcodeOf_none_iff (w : Word) : opcodeOf w = none ↔ ¬ w.toNat < 2 ^ 25 := by
  refine ⟨fun e h => ?_, fun h => opcodeMap_out (opField_out w h)⟩
  rw [opcodeOf, opField_eq w h] at e
  have hn : w.toNat / 2 ^ 22 < 8 := by omega
  generalize w.toNat / 2 ^ 22 = n at e hn
  interval_cases n <;> cases e

/-! ## The decoder, one lemma per format -/

theorem decode_none {w : Word} (h : opcodeOf w = none) : decode w = .error .badOpcode := by
  simp [decode, h]

theorem decode_add {w : Word} (h : opcodeOf w = some .add) : decode w = decodeR .add w := by simp [decode, h]

theorem decode_nand {w : Word} (h : opcodeOf w = some .nand) : decode w = decodeR .nand w := by simp [decode, h]

theorem decode_lw {w : Word} (h : opcodeOf w = some .lw) : decode w = decodeI .lw w := by simp [decode, h]

theorem decode_sw {w : Word} (h : opcodeOf w = some .sw) : decode w = decodeI .sw w := by simp [decode, h]

theorem decode_beq {w : Word} (h : opcodeOf w = some .beq) : decode w = decodeI .beq w := by simp [decode, h]

theorem decode_jalr {w : Word} (h : opcodeOf w = some .jalr) :
    decode w = .ok (.jalr (regOfField (regAField w)) (regOfField (regBField w))) := by simp [decode, h]

theorem decode_halt {w : Word} (h : opcodeOf w = some .halt) : decode w = .ok .halt := by simp [decode, h]

theorem decode_noop {w : Word} (h : opcodeOf w = some .noop) : decode w = .ok .noop := by simp [decode, h]

/-- A sign-extended 16-bit field lies in the offset's range (spec/30_encoding.md R73). -/
theorem sext16_range {u : Int} (h0 : 0 ≤ u) (h : u < 2 ^ 16) : -32768 ≤ sext16 u ∧ sext16 u ≤ 32767 := by
  unfold sext16
  split <;> omega

/-- Sign extension undoes the encoder's `imm mod 2^16` (spec/30_encoding.md R81). -/
theorem sext16_mod {imm : Int} (h0 : -32768 ≤ imm) (h : imm ≤ 32767) : sext16 (imm % 2 ^ 16) = imm := by
  unfold sext16
  split <;> omega

theorem offsetInRange_iff (imm : Int) : offsetInRange imm = true ↔ -32768 ≤ imm ∧ imm ≤ 32767 := by
  simp [offsetInRange]

end Sys2Proof
end

