-- ==== Sys2Proof/Laws/State.lean ====
section
/-! SUPPORT. One lemma per field per update of the state, and the register file's read-after-write laws. -/

namespace Sys2Proof.Machine

/-! ## `State.setReg` -/

@[simp] theorem State.setReg_pc (s : State) (r : Reg) (v : Word) : (s.setReg r v).pc = s.pc := rfl
@[simp] theorem State.setReg_mem (s : State) (r : Reg) (v : Word) : (s.setReg r v).mem = s.mem := rfl
@[simp] theorem State.setReg_ext (s : State) (r : Reg) (v : Word) : (s.setReg r v).ext = s.ext := rfl
@[simp] theorem State.setReg_status (s : State) (r : Reg) (v : Word) : (s.setReg r v).status = s.status := rfl
@[simp] theorem State.setReg_instructionsExecuted (s : State) (r : Reg) (v : Word) : (s.setReg r v).instructionsExecuted = s.instructionsExecuted := rfl
@[simp] theorem State.setReg_memWord (s : State) (r : Reg) (v : Word) (b : Nat) : (s.setReg r v).memWord b = s.memWord b := rfl

/-! ## `State.storeWord` -/

@[simp] theorem State.storeWord_regs (s : State) (a : Nat) (v : Word) : (s.storeWord a v).regs = s.regs := rfl
@[simp] theorem State.storeWord_pc (s : State) (a : Nat) (v : Word) : (s.storeWord a v).pc = s.pc := rfl
@[simp] theorem State.storeWord_mem (s : State) (a : Nat) (v : Word) : (s.storeWord a v).mem = s.mem.write a v := rfl
@[simp] theorem State.storeWord_ext (s : State) (a : Nat) (v : Word) : (s.storeWord a v).ext = if s.ext ≤ a then a + 1 else s.ext := rfl
@[simp] theorem State.storeWord_status (s : State) (a : Nat) (v : Word) : (s.storeWord a v).status = s.status := rfl
@[simp] theorem State.storeWord_instructionsExecuted (s : State) (a : Nat) (v : Word) : (s.storeWord a v).instructionsExecuted = s.instructionsExecuted := rfl
@[simp] theorem State.storeWord_reg (s : State) (a : Nat) (v : Word) (q : Reg) : (s.storeWord a v).reg q = s.reg q := rfl

/-! ## `State.complete` -/

@[simp] theorem State.complete_regs (s : State) (n : Nat) : (s.complete n).regs = s.regs := rfl
@[simp] theorem State.complete_pc (s : State) (n : Nat) : (s.complete n).pc = n := rfl
@[simp] theorem State.complete_mem (s : State) (n : Nat) : (s.complete n).mem = s.mem := rfl
@[simp] theorem State.complete_ext (s : State) (n : Nat) : (s.complete n).ext = s.ext := rfl
@[simp] theorem State.complete_status (s : State) (n : Nat) : (s.complete n).status = s.status := rfl
@[simp] theorem State.complete_instructionsExecuted (s : State) (n : Nat) : (s.complete n).instructionsExecuted = s.instructionsExecuted + 1 := rfl
@[simp] theorem State.complete_reg (s : State) (n : Nat) (q : Reg) : (s.complete n).reg q = s.reg q := rfl
@[simp] theorem State.complete_memWord (s : State) (n : Nat) (b : Nat) : (s.complete n).memWord b = s.memWord b := rfl

/-! ## `State.finish` -/

@[simp] theorem State.finish_regs (s : State) (st : Status) : (s.finish st).regs = s.regs := rfl
@[simp] theorem State.finish_pc (s : State) (st : Status) : (s.finish st).pc = s.pc := rfl
@[simp] theorem State.finish_mem (s : State) (st : Status) : (s.finish st).mem = s.mem := rfl
@[simp] theorem State.finish_ext (s : State) (st : Status) : (s.finish st).ext = s.ext := rfl
@[simp] theorem State.finish_status (s : State) (st : Status) : (s.finish st).status = st := rfl
@[simp] theorem State.finish_instructionsExecuted (s : State) (st : Status) : (s.finish st).instructionsExecuted = s.instructionsExecuted := rfl
@[simp] theorem State.finish_reg (s : State) (st : Status) (q : Reg) : (s.finish st).reg q = s.reg q := rfl
@[simp] theorem State.finish_memWord (s : State) (st : Status) (b : Nat) : (s.finish st).memWord b = s.memWord b := rfl

/-! ## `State.takeFault` -/

@[simp] theorem State.takeFault_regs (s : State) (f : RunFault) : (s.takeFault f).regs = s.regs := rfl
@[simp] theorem State.takeFault_pc (s : State) (f : RunFault) : (s.takeFault f).pc = s.pc := rfl
@[simp] theorem State.takeFault_mem (s : State) (f : RunFault) : (s.takeFault f).mem = s.mem := rfl
@[simp] theorem State.takeFault_ext (s : State) (f : RunFault) : (s.takeFault f).ext = s.ext := rfl
@[simp] theorem State.takeFault_status (s : State) (f : RunFault) : (s.takeFault f).status = .faulted f := rfl
@[simp] theorem State.takeFault_instructionsExecuted (s : State) (f : RunFault) : (s.takeFault f).instructionsExecuted = s.instructionsExecuted := rfl
@[simp] theorem State.takeFault_reg (s : State) (f : RunFault) (q : Reg) : (s.takeFault f).reg q = s.reg q := rfl
@[simp] theorem State.takeFault_memWord (s : State) (f : RunFault) (b : Nat) : (s.takeFault f).memWord b = s.memWord b := rfl

/-! ## `State.placeWord` -/

@[simp] theorem State.placeWord_regs (s : State) (w : Word) : (s.placeWord w).regs = s.regs := rfl
@[simp] theorem State.placeWord_pc (s : State) (w : Word) : (s.placeWord w).pc = s.fetchPc := rfl
@[simp] theorem State.placeWord_mem (s : State) (w : Word) : (s.placeWord w).mem = s.mem.write s.fetchPc w := rfl
@[simp] theorem State.placeWord_ext (s : State) (w : Word) : (s.placeWord w).ext = if s.ext ≤ s.fetchPc then s.fetchPc + 1 else s.ext := rfl
@[simp] theorem State.placeWord_status (s : State) (w : Word) : (s.placeWord w).status = .running := rfl
@[simp] theorem State.placeWord_instructionsExecuted (s : State) (w : Word) : (s.placeWord w).instructionsExecuted = s.instructionsExecuted := rfl
@[simp] theorem State.placeWord_reg (s : State) (w : Word) (q : Reg) : (s.placeWord w).reg q = s.reg q := rfl

/-! ## The register file -/

/-- A register reads as it was last written, and no other register changes (spec/10_state.md R20, R190 of
70_reset_and_hazards.md). -/
@[simp] theorem State.setReg_reg (s : State) (r : Reg) (v : Word) (q : Reg) :
    (s.setReg r v).reg q = if q = r then v else s.reg q := by
  simp only [State.reg, State.setReg, Vector.get_eq_getElem, Vector.getElem_set]
  by_cases h : q = r
  · simp [h]
  · have : r.val ≠ q.val := fun e => h (Fin.ext e.symm)
    simp [h, this]

theorem State.setReg_reg_self (s : State) (r : Reg) (v : Word) : (s.setReg r v).reg r = v := by simp

theorem State.setReg_reg_ne (s : State) {r q : Reg} (v : Word) (h : q ≠ r) :
    (s.setReg r v).reg q = s.reg q := by simp [h]

/-- Two register files that read alike are equal. -/
theorem regs_ext {s t : State} (h : ∀ q, s.reg q = t.reg q) : s.regs = t.regs := by
  apply Vector.ext
  intro i hi
  simpa [State.reg, Vector.get_eq_getElem] using h ⟨i, hi⟩

end Sys2Proof.Machine
end

