-- ==== Sys2Proof/Laws/Memory.lean ====
section
/-! SUPPORT. The memory laws: every operation keeps the canonical form, and a read after a write. -/

namespace Sys2Proof.Machine

/-! ## Reading -/

@[simp] theorem Memory.read_nil (a : Nat) : Memory.read [] a = Memory.unlisted := rfl

theorem Memory.read_cons (b : Nat) (u : Word) (m : Memory) (a : Nat) :
    Memory.read ((b, u) :: m) a = if a = b then u else Memory.read m a := rfl

/-- A word below every listed index reads as unlisted. -/
theorem Memory.read_of_lt {m : Memory} {a : Nat} (h : ∀ c ∈ m, a < c.1) : m.read a = Memory.unlisted := by
  induction m with
  | nil => rfl
  | cons c m ih =>
    have ha : a ≠ c.1 := Nat.ne_of_lt (h c (by simp))
    simp only [Memory.read, ha, if_false]
    exact ih fun d hd => h d (List.mem_cons_of_mem _ hd)

/-- A word that is no entry's reads as unlisted. -/
theorem Memory.read_of_not_mem {m : Memory} {a : Nat} (h : ∀ c ∈ m, c.1 ≠ a) : m.read a = Memory.unlisted := by
  induction m with
  | nil => rfl
  | cons c m ih =>
    have ha : a ≠ c.1 := fun e => h c (by simp) e.symm
    simp only [Memory.read, ha, if_false]
    exact ih fun d hd => h d (List.mem_cons_of_mem _ hd)

/-- `consWord` adds one word to a list of higher indices. -/
theorem Memory.read_consWord {m : Memory} {a : Nat} (v : Word) (h : ∀ c ∈ m, a < c.1) (b : Nat) :
    (Memory.consWord a v m).read b = if b = a then v else m.read b := by
  unfold Memory.consWord
  split
  · next hv =>
    by_cases hb : b = a
    · simp [hb, hv, Memory.read_of_lt h]
    · simp [hb]
  · rfl

theorem Memory.mem_consWord {m : Memory} {a : Nat} {v : Word} {c : Nat × Word}
    (h : c ∈ Memory.consWord a v m) : c = (a, v) ∨ c ∈ m := by
  unfold Memory.consWord at h
  split at h
  · exact .inr h
  · simpa using h

theorem Memory.wf_consWord {m : Memory} {a : Nat} {v : Word} (hm : m.wf) (h : ∀ c ∈ m, a < c.1) :
    (Memory.consWord a v m).wf := by
  unfold Memory.consWord
  split
  · exact hm
  · next hv =>
    refine ⟨List.pairwise_cons.2 ⟨h, hm.1⟩, ?_⟩
    intro c hc
    rcases List.mem_cons.1 hc with rfl | hc
    · exact hv
    · exact hm.2 c hc

/-! ## Writing -/

theorem Memory.wf_tail {c : Nat × Word} {m : Memory} (h : Memory.wf (c :: m)) : m.wf :=
  ⟨(List.pairwise_cons.1 h.1).2, fun d hd => h.2 d (List.mem_cons_of_mem _ hd)⟩

theorem Memory.wf_head {c : Nat × Word} {m : Memory} (h : Memory.wf (c :: m)) : ∀ d ∈ m, c.1 < d.1 :=
  (List.pairwise_cons.1 h.1).1

/-- A written memory lists only the written index and indices listed before. -/
theorem Memory.mem_write {m : Memory} {a : Nat} {v : Word} {c : Nat × Word} (h : c ∈ m.write a v) :
    c = (a, v) ∨ c ∈ m := by
  induction m with
  | nil => exact Memory.mem_consWord h
  | cons d m ih =>
    unfold Memory.write at h
    split at h
    · exact Memory.mem_consWord h
    · split at h
      · exact (Memory.mem_consWord h).imp_right (List.mem_cons_of_mem _)
      · rcases List.mem_cons.1 h with rfl | h
        · exact .inr (by simp)
        · exact (ih h).imp_right (List.mem_cons_of_mem _)

/-- A write keeps the canonical form. -/
theorem Memory.wf_write {m : Memory} (hm : m.wf) (a : Nat) (v : Word) : (m.write a v).wf := by
  induction m with
  | nil => exact Memory.wf_consWord hm (by simp)
  | cons d m ih =>
    have hd := Memory.wf_head hm
    unfold Memory.write
    split
    · next hlt =>
      refine Memory.wf_consWord hm fun c hc => ?_
      rcases List.mem_cons.1 hc with rfl | hc
      · exact hlt
      · exact Nat.lt_trans hlt (hd c hc)
    · split
      · next heq => exact Memory.wf_consWord (Memory.wf_tail hm) fun c hc => heq ▸ hd c hc
      · next hlt hne =>
        have ht := ih (Memory.wf_tail hm)
        refine ⟨List.pairwise_cons.2 ⟨fun c hc => ?_, ht.1⟩, fun c hc => ?_⟩
        · rcases Memory.mem_write hc with rfl | hc
          · exact Nat.lt_of_le_of_ne (Nat.not_lt.1 hlt) (Ne.symm hne)
          · exact hd c hc
        · rcases List.mem_cons.1 hc with rfl | hc
          · exact hm.2 _ (by simp)
          · exact ht.2 c hc

/-- A read after a write, on a canonical memory: the word written, and every other word as before. -/
theorem Memory.read_write {m : Memory} (hm : m.wf) (a : Nat) (v : Word) (b : Nat) :
    (m.write a v).read b = if b = a then v else m.read b := by
  induction m with
  | nil => exact Memory.read_consWord v (by simp) b
  | cons d m ih =>
    have hd := Memory.wf_head hm
    unfold Memory.write
    split
    · next hlt =>
      refine Memory.read_consWord v (fun c hc => ?_) b
      rcases List.mem_cons.1 hc with rfl | hc
      · exact hlt
      · exact Nat.lt_trans hlt (hd c hc)
    · split
      · next heq =>
        rw [Memory.read_consWord v (fun c hc => heq ▸ hd c hc), Memory.read_cons]
        by_cases hb : b = a
        · simp [hb]
        · simp [hb, ← heq]
      · next hlt hne =>
        rw [Memory.read_cons, Memory.read_cons, ih (Memory.wf_tail hm)]
        by_cases hb : b = d.1
        · have : b ≠ a := fun e => hne (e ▸ hb)
          simp [hb, show ¬ d.1 = a from fun e => hne e.symm]
        · simp [hb]

/-! ## The image -/

theorem Memory.mem_ofImage {k : Nat} {img : List Word} {c : Nat × Word} (h : c ∈ Memory.ofImage k img) :
    k ≤ c.1 ∧ c.1 < k + img.length := by
  induction img generalizing k with
  | nil => simp [Memory.ofImage] at h
  | cons w img ih =>
    simp only [Memory.ofImage] at h
    rcases Memory.mem_consWord h with rfl | h
    · simp
    · have := ih h
      simp only [List.length_cons]
      omega

theorem Memory.wf_ofImage (k : Nat) (img : List Word) : (Memory.ofImage k img).wf := by
  induction img generalizing k with
  | nil => exact ⟨.nil, by simp [Memory.ofImage]⟩
  | cons w img ih =>
    exact Memory.wf_consWord (ih (k + 1)) fun c hc => (Memory.mem_ofImage hc).1

/-- Word `k + j` of a loaded memory is image word `j`, and 0 past the image (spec/10_state.md R30). -/
theorem Memory.read_ofImage (k : Nat) (img : List Word) (j : Nat) :
    (Memory.ofImage k img).read (k + j) = img[j]?.getD Memory.unlisted := by
  induction img generalizing k j with
  | nil => simp [Memory.ofImage]
  | cons w img ih =>
    rw [Memory.ofImage, Memory.read_consWord w fun c hc => (Memory.mem_ofImage hc).1]
    cases j with
    | zero => simp
    | succ j =>
      have := ih (k + 1) j
      rw [show k + (j + 1) = k + 1 + j by omega]
      simp [this]
      omega

/-! ## Stores of the state -/

/-- The store of SW, read back (spec/41_memory.md R112). -/
theorem State.storeWord_memWord {s : State} (hm : s.mem.wf) (a : Nat) (v : Word) (b : Nat) :
    (s.storeWord a v).memWord b = if b = a then v else s.memWord b :=
  Memory.read_write hm a v b

theorem State.placeWord_memWord {s : State} (hm : s.mem.wf) (w : Word) (b : Nat) :
    (s.placeWord w).memWord b = if b = s.fetchPc then w else s.memWord b :=
  Memory.read_write hm s.fetchPc w b

theorem State.storeWord_wf {s : State} (hm : s.mem.wf) (a : Nat) (v : Word) : (s.storeWord a v).mem.wf :=
  Memory.wf_write hm a v

theorem State.placeWord_wf {s : State} (hm : s.mem.wf) (w : Word) : (s.placeWord w).mem.wf :=
  Memory.wf_write hm s.fetchPc w

theorem State.reset_wf : State.reset.mem.wf := ⟨.nil, by simp [State.reset]⟩

end Sys2Proof.Machine
end

