-- ==== Sys2Proof/Laws/Ops.lean ====
section
/-! SUPPORT. What each shared operation can do: the address translator, the target check, the checked commit, the
ALU, the control transfers' targets. -/

namespace Sys2Proof.Machine

/-! ## The address translator (spec/41_memory.md R109) -/

theorem translateAddr_ok {base : Word} {imm : Int} (h0 : 0 ≤ sval base + imm) (h : sval base + imm < 65536) :
    translateAddr base imm = .ok (sval base + imm).toNat := by
  simp [translateAddr, h0, h]

theorem translateAddr_error {base : Word} {imm : Int} (h : sval base + imm < 0 ∨ 65536 ≤ sval base + imm) :
    translateAddr base imm = .error .memAddress := by
  have : ¬ (0 ≤ sval base + imm ∧ sval base + imm < 65536) := by omega
  simp only [translateAddr, Config.capacity_eq]
  exact if_neg this

/-- A translated index is the exact sum, and lies in the memory. -/
theorem translateAddr_eq_ok {base : Word} {imm : Int} {a : Nat} (h : translateAddr base imm = .ok a) :
    (a : Int) = sval base + imm ∧ a < 65536 := by
  by_cases hr : 0 ≤ sval base + imm ∧ sval base + imm < 65536
  · cases (translateAddr_ok hr.1 hr.2).symm.trans h
    omega
  · cases (translateAddr_error (base := base) (imm := imm) (by omega)).symm.trans h

/-- The translator has one way to fail. -/
theorem translateAddr_eq_error {base : Word} {imm : Int} {e : BoundsErr} (h : translateAddr base imm = .error e) :
    e = .memAddress ∧ (sval base + imm < 0 ∨ 65536 ≤ sval base + imm) := by
  by_cases hr : 0 ≤ sval base + imm ∧ sval base + imm < 65536
  · cases (translateAddr_ok hr.1 hr.2).symm.trans h
  · have hr' : sval base + imm < 0 ∨ 65536 ≤ sval base + imm := by omega
    cases (translateAddr_error hr').symm.trans h
    exact ⟨rfl, hr'⟩

/-! ## The target check (spec/42_control.md R128) -/

theorem checkTarget_none {t : Int} (h0 : 0 ≤ t) (h : t ≤ 65536) : checkTarget t = none := by
  simp [checkTarget, h0, h]

theorem checkTarget_some {t : Int} (h : t < 0 ∨ 65536 < t) : checkTarget t = some .pcTarget := by
  have : ¬ (0 ≤ t ∧ t ≤ 65536) := by omega
  simp only [checkTarget, Config.capacity_eq]
  exact if_neg this

/-- A target that passes lies in [0, 65536]. -/
theorem checkTarget_eq_none {t : Int} (h : checkTarget t = none) : 0 ≤ t ∧ t ≤ 65536 := by
  by_cases hr : t < 0 ∨ 65536 < t
  · cases (checkTarget_some hr).symm.trans h
  · omega

/-- The target check has one way to fail. -/
theorem checkTarget_eq_some {t : Int} {e : BoundsErr} (h : checkTarget t = some e) :
    e = .pcTarget ∧ (t < 0 ∨ 65536 < t) := by
  by_cases hr : t < 0 ∨ 65536 < t
  · cases (checkTarget_some hr).symm.trans h
    exact ⟨rfl, hr⟩
  · cases (checkTarget_none (t := t) (by omega) (by omega)).symm.trans h

/-! ## The read ports and the write port (spec/10_state.md R24, R25) -/

theorem src1_eq {i : Instr} {r : Reg} (h : src1Reg i = some r) (s : State) : src1 i s = s.reg r := by
  simp [src1, h]

theorem src2_eq {i : Instr} {r : Reg} (h : src2Reg i = some r) (s : State) : src2 i s = s.reg r := by
  simp [src2, h]

@[simp] theorem State.commitReg_true (s : State) (r : Reg) (v : Word) : s.commitReg true (some r) v = s.setReg r v := rfl

@[simp] theorem State.commitReg_false (s : State) (r : Option Reg) (v : Word) : s.commitReg false r v = s := rfl

@[simp] theorem State.commitStore_none (s : State) : s.commitStore none = s := rfl

@[simp] theorem State.commitStore_some (s : State) (a : Nat) (v : Word) :
    s.commitStore (some (a, v)) = s.storeWord a v := rfl

@[simp] theorem errorOf_ok (a : Nat) : errorOf (.ok a) = none := rfl

@[simp] theorem errorOf_error (e : BoundsErr) : errorOf (.error e) = some e := rfl

/-! ## Retiring an instruction (spec/70_reset_and_hazards.md R184, 60_exceptions.md R158) -/

/-- An instruction either commits or takes the fault it raises. -/
theorem retired_cases (i : Instr) (s : State) :
    (raised i s = none ∧ retired i s = committed i s) ∨
      ∃ e, raised i s = some e ∧ retired i s = s.takeFault (.boundsError e) := by
  cases h : raised i s with
  | none => exact .inl ⟨rfl, by simp [retired, h]⟩
  | some e => exact .inr ⟨e, rfl, by simp [retired, h]⟩

theorem retired_fault {i : Instr} {s : State} {e : BoundsErr} (h : raised i s = some e) :
    retired i s = s.takeFault (.boundsError e) := by simp [retired, h]

/-! What each instruction raises. -/

@[simp] theorem raised_add (rA rB rD : Reg) (s : State) : raised (.add rA rB rD) s = none := rfl

@[simp] theorem raised_nand (rA rB rD : Reg) (s : State) : raised (.nand rA rB rD) s = none := rfl

@[simp] theorem raised_halt (s : State) : raised .halt s = none := rfl

@[simp] theorem raised_noop (s : State) : raised .noop s = none := rfl

theorem raised_lw (rA rB : Reg) (imm : Int) (s : State) :
    raised (.lw rA rB imm) s = errorOf (translateAddr (s.reg rA) imm) := Option.or_none

theorem raised_sw (rA rB : Reg) (imm : Int) (s : State) :
    raised (.sw rA rB imm) s = errorOf (translateAddr (s.reg rA) imm) := Option.or_none

theorem raised_beq (rA rB : Reg) (imm : Int) (s : State) :
    raised (.beq rA rB imm) s = checkTarget (branchTarget s.pc (s.reg rA) (s.reg rB) imm) := rfl

theorem raised_jalr (rA rB : Reg) (s : State) :
    raised (.jalr rA rB) s = checkTarget (jalrTarget s.pc rA rB (s.reg rA)) := rfl

/-! ## The ALU (spec/40_alu.md R95, R97) -/

@[simp] theorem alu_add (a b : Word) : alu .add a b = word32 (sval a + sval b) := rfl

@[simp] theorem alu_nand (a b : Word) : alu .nand a b = ~~~(a &&& b) := rfl

/-! ## The control transfers' targets (spec/42_control.md R130 to R132) -/

theorem branchTarget_eq {pc : Nat} {a b : Word} {imm : Int} (h : a = b) : branchTarget pc a b imm = pc + imm := by
  simp [branchTarget, eqComparator, h]

theorem branchTarget_ne {pc : Nat} {a b : Word} {imm : Int} (h : a ≠ b) : branchTarget pc a b imm = pc + 1 := by
  simp [branchTarget, eqComparator, h]

@[simp] theorem jalrTarget_self (pc : Nat) (r : Reg) (v : Word) : jalrTarget pc r r v = pc := by simp [jalrTarget]

theorem jalrTarget_ne {pc : Nat} {rA rB : Reg} {v : Word} (h : rA ≠ rB) : jalrTarget pc rA rB v = sval v := by
  simp [jalrTarget, h]

@[simp] theorem jalrLink_self (pc : Nat) (r : Reg) : jalrLink pc r r = word32 pc := by simp [jalrLink]

theorem jalrLink_ne {pc : Nat} {rA rB : Reg} (h : rA ≠ rB) : jalrLink pc rA rB = word32 (pc + 1) := by
  simp [jalrLink, h]

end Sys2Proof.Machine
end

