-- ==== Sys2Proof/Laws/PerInstr.lean ====
section
/-! SUPPORT. The family EncodeFits: a well-formed instruction's word has nothing above the opcode, one lemma per
constructor (spec/30_encoding.md R66, R81). -/

namespace Sys2Proof

/-- A non-negative integer below 2^32 is its word's unsigned value. -/
theorem word32_toNat {v : Int} (h0 : 0 ≤ v) (h : v < 2 ^ 32) : ((word32 v).toNat : Int) = v := by
  rw [word32, BitVec.toNat_ofInt]
  omega

/-- An encoded word is its base plus its low field, which never carries into the base. -/
theorem encodeBase_add_toNat (op : Opcode) (rA rB : Reg) {x : Int} (h0 : 0 ≤ x) (h : x < 2 ^ 16) :
    ((word32 (encodeBase op rA rB + x)).toNat : Int) = encodeBase op rA rB + x := by
  have := opVal_lt op
  apply word32_toNat <;> simp only [encodeBase] <;> omega

/-- The fields that `encodeBase` puts together. -/
theorem encodeBase_add_parts (op : Opcode) (rA rB : Reg) {x : Int} (h0 : 0 ≤ x) (h : x < 2 ^ 16) :
    (word32 (encodeBase op rA rB + x)).toNat / 2 ^ 22 = opVal op := by
  have := encodeBase_add_toNat op rA rB h0 h
  simp only [encodeBase] at this ⊢
  omega

/-- The family's statement: bits 31:22 of a well-formed instruction's word are its opcode's value. -/
def Laws.EncodeFits.Statement (i : Instr) : Prop :=
  i.wellFormed = true → (encode i).toNat / 2 ^ 22 = opVal i.opcode

theorem Laws.EncodeFits.add (rA rB rD : Reg) : Statement (.add rA rB rD) := fun _ =>
  encodeBase_add_parts .add rA rB (by omega) (by omega)

theorem Laws.EncodeFits.nand (rA rB rD : Reg) : Statement (.nand rA rB rD) := fun _ =>
  encodeBase_add_parts .nand rA rB (by omega) (by omega)

theorem Laws.EncodeFits.lw (rA rB : Reg) (imm : Int) : Statement (.lw rA rB imm) := fun _ =>
  encodeBase_add_parts .lw rA rB (by omega) (by omega)

theorem Laws.EncodeFits.sw (rA rB : Reg) (imm : Int) : Statement (.sw rA rB imm) := fun _ =>
  encodeBase_add_parts .sw rA rB (by omega) (by omega)

theorem Laws.EncodeFits.beq (rA rB : Reg) (imm : Int) : Statement (.beq rA rB imm) := fun _ =>
  encodeBase_add_parts .beq rA rB (by omega) (by omega)

theorem Laws.EncodeFits.jalr (rA rB : Reg) : Statement (.jalr rA rB) := fun _ => by
  simpa [encode, Instr.opcode] using encodeBase_add_parts .jalr rA rB (x := 0) (by omega) (by omega)

theorem Laws.EncodeFits.halt : Statement .halt := fun _ => by decide

theorem Laws.EncodeFits.noop : Statement .noop := fun _ => by decide

end Sys2Proof
end

