-- ==== Sys2Proof/Laws/Step.lean ====
section
/-! SUPPORT. What a step can do, said once: the run control by cases, and each meaning by cases. -/

namespace Sys2Proof.Machine

/-! ## The run control (spec/70_reset_and_hazards.md R184) -/

theorem step_exhausted {s : State} (hs : s.status = .running) (h : s.ext ≤ s.pc) :
    step s = .next (s.finish .exhaustedMemory) := by
  simp [step, runStep, hs, h]

theorem step_fetch {s : State} (hs : s.status = .running) (h : s.pc < s.ext) (hc : s.pc < 65536) :
    step s = fetchExecute s := by
  simp [step, runStep, hs, Nat.not_le.2 h, Nat.not_le.2 hc]

theorem fetchExecute_ok {s : State} {i : Instr} (h : decode (s.memWord s.pc) = .ok i) :
    fetchExecute s = exec i s := by
  simp [fetchExecute, h]

theorem fetchExecute_error {s : State} {e : DecodeErr} (h : decode (s.memWord s.pc) = .error e) :
    fetchExecute s = .next (s.takeFault (.decodeError e)) := by
  simp [fetchExecute, h]

/-- Everything a step that answers a next state can have done, with the conditions it did it under. -/
theorem step_cases {s t : State} (h : step s = .next t) :
    s.status = .running ∧
      ((s.ext ≤ s.pc ∧ t = s.finish .exhaustedMemory) ∨
        (s.pc < s.ext ∧ s.pc < 65536 ∧
          ((∃ e, decode (s.memWord s.pc) = .error e ∧ t = s.takeFault (.decodeError e)) ∨
            ∃ i, decode (s.memWord s.pc) = .ok i ∧ exec i s = .next t))) := by
  cases hs : s.status with
  | running =>
    refine ⟨rfl, ?_⟩
    by_cases hp : s.ext ≤ s.pc
    · rw [step_exhausted hs hp] at h
      exact .inl ⟨hp, by simpa using h.symm⟩
    · by_cases hc : s.pc < 65536
      · rw [step_fetch hs (Nat.not_le.1 hp) hc] at h
        refine .inr ⟨Nat.not_le.1 hp, hc, ?_⟩
        cases hd : decode (s.memWord s.pc) with
        | error e => exact .inl ⟨e, rfl, by simpa [fetchExecute, hd] using h.symm⟩
        | ok i => exact .inr ⟨i, rfl, by simpa [fetchExecute, hd] using h⟩
      · simp [step, runStep, hs, hp, Nat.not_lt.1 hc] at h
  | halted => simp [step, runStep, hs] at h
  | exhaustedMemory => simp [step, runStep, hs] at h
  | faulted f => simp [step, runStep, hs] at h

/-! ## The meanings, each in one equation per case -/

theorem exec_add_eq (rA rB rD : Reg) (s : State) :
    exec (.add rA rB rD) s =
      .next ((s.setReg rA (alu .add (s.reg rD) (s.reg rB))).complete (s.pc + 1)) := rfl

theorem exec_nand_eq (rA rB rD : Reg) (s : State) :
    exec (.nand rA rB rD) s =
      .next ((s.setReg rD (alu .nand (s.reg rA) (s.reg rB))).complete (s.pc + 1)) := rfl

theorem exec_halt_eq (s : State) : exec .halt s = .next ((s.complete (s.pc + 1)).finish .halted) := rfl

theorem exec_noop_eq (s : State) : exec .noop s = .next (s.complete (s.pc + 1)) := rfl

theorem exec_lw_ok {rA rB : Reg} {imm : Int} {s : State} {a : Nat} (h : translateAddr (s.reg rA) imm = .ok a) :
    exec (.lw rA rB imm) s = .next ((s.setReg rB (s.memWord a)).complete (s.pc + 1)) := by
  have hr : raised (.lw rA rB imm) s = none := by rw [raised_lw, h]; rfl
  simp [exec, execLw, retired, committed, hr, memWrite, writeData, src1, src1Reg, h, loadData, writeEnable, writeReg,
    nextPc, Int.toNat_natCast_add_one]

theorem exec_sw_ok {rA rB : Reg} {imm : Int} {s : State} {a : Nat} (h : translateAddr (s.reg rA) imm = .ok a) :
    exec (.sw rA rB imm) s = .next ((s.storeWord a (s.reg rB)).complete (s.pc + 1)) := by
  have hr : raised (.sw rA rB imm) s = none := by rw [raised_sw, h]; rfl
  simp [exec, execSw, retired, committed, hr, memWrite, src1, src2, src1Reg, src2Reg, h, storeAt, writeEnable,
    writeReg, nextPc, Int.toNat_natCast_add_one]

theorem exec_lw_error {rA rB : Reg} {imm : Int} {s : State} {e : BoundsErr}
    (h : translateAddr (s.reg rA) imm = .error e) :
    exec (.lw rA rB imm) s = .next (s.takeFault (.boundsError e)) := by
  rw [exec, execLw, retired_fault (by rw [raised_lw, h]; rfl)]

theorem exec_sw_error {rA rB : Reg} {imm : Int} {s : State} {e : BoundsErr}
    (h : translateAddr (s.reg rA) imm = .error e) :
    exec (.sw rA rB imm) s = .next (s.takeFault (.boundsError e)) := by
  rw [exec, execSw, retired_fault (by rw [raised_sw, h]; rfl)]

theorem exec_beq_ok {rA rB : Reg} {imm : Int} {s : State}
    (h : checkTarget (branchTarget s.pc (s.reg rA) (s.reg rB) imm) = none) :
    exec (.beq rA rB imm) s = .next (s.complete (branchTarget s.pc (s.reg rA) (s.reg rB) imm).toNat) := by
  simp [exec, execBeq, retired, committed, raised_beq, h, memWrite, writeEnable, writeReg, nextPc, src1, src2, src1Reg,
    src2Reg]

theorem exec_beq_error {rA rB : Reg} {imm : Int} {s : State} {e : BoundsErr}
    (h : checkTarget (branchTarget s.pc (s.reg rA) (s.reg rB) imm) = some e) :
    exec (.beq rA rB imm) s = .next (s.takeFault (.boundsError e)) := by
  rw [exec, execBeq, retired_fault (by rw [raised_beq, h])]

theorem exec_jalr_ok {rA rB : Reg} {s : State} (h : checkTarget (jalrTarget s.pc rA rB (s.reg rA)) = none) :
    exec (.jalr rA rB) s =
      .next ((s.setReg rB (jalrLink s.pc rA rB)).complete (jalrTarget s.pc rA rB (s.reg rA)).toNat) := by
  simp [exec, execJalr, retired, committed, raised_jalr, h, memWrite, writeData, link, writeEnable, writeReg, nextPc,
    src1, src1Reg]

theorem exec_jalr_error {rA rB : Reg} {s : State} {e : BoundsErr}
    (h : checkTarget (jalrTarget s.pc rA rB (s.reg rA)) = some e) :
    exec (.jalr rA rB) s = .next (s.takeFault (.boundsError e)) := by
  rw [exec, execJalr, retired_fault (by rw [raised_jalr, h])]

/-! ## The meanings by cases: what a next state can be -/

/-- Every meaning answers a next state: the instruction's own effect or the BoundsError it takes. -/
theorem exec_next (i : Instr) (s : State) : ∃ t, exec i s = .next t := by
  cases i <;> exact ⟨_, rfl⟩

theorem exec_add {rA rB rD : Reg} {s t : State} (h : exec (.add rA rB rD) s = .next t) :
    t = (s.setReg rA (alu .add (s.reg rD) (s.reg rB))).complete (s.pc + 1) := by
  cases (exec_add_eq ..).symm.trans h; rfl

theorem exec_nand {rA rB rD : Reg} {s t : State} (h : exec (.nand rA rB rD) s = .next t) :
    t = (s.setReg rD (alu .nand (s.reg rA) (s.reg rB))).complete (s.pc + 1) := by
  cases (exec_nand_eq ..).symm.trans h; rfl

theorem exec_lw {rA rB : Reg} {imm : Int} {s t : State} (h : exec (.lw rA rB imm) s = .next t) :
    (∃ a, translateAddr (s.reg rA) imm = .ok a ∧ t = (s.setReg rB (s.memWord a)).complete (s.pc + 1)) ∨
      ∃ e, translateAddr (s.reg rA) imm = .error e ∧ t = s.takeFault (.boundsError e) := by
  cases ha : translateAddr (s.reg rA) imm with
  | ok a => cases (exec_lw_ok ha).symm.trans h; exact .inl ⟨a, rfl, rfl⟩
  | error e => cases (exec_lw_error ha).symm.trans h; exact .inr ⟨e, rfl, rfl⟩

theorem exec_sw {rA rB : Reg} {imm : Int} {s t : State} (h : exec (.sw rA rB imm) s = .next t) :
    (∃ a, translateAddr (s.reg rA) imm = .ok a ∧ t = (s.storeWord a (s.reg rB)).complete (s.pc + 1)) ∨
      ∃ e, translateAddr (s.reg rA) imm = .error e ∧ t = s.takeFault (.boundsError e) := by
  cases ha : translateAddr (s.reg rA) imm with
  | ok a => cases (exec_sw_ok ha).symm.trans h; exact .inl ⟨a, rfl, rfl⟩
  | error e => cases (exec_sw_error ha).symm.trans h; exact .inr ⟨e, rfl, rfl⟩

theorem exec_beq {rA rB : Reg} {imm : Int} {s t : State} (h : exec (.beq rA rB imm) s = .next t) :
    (checkTarget (branchTarget s.pc (s.reg rA) (s.reg rB) imm) = none ∧
        t = s.complete (branchTarget s.pc (s.reg rA) (s.reg rB) imm).toNat) ∨
      ∃ e, checkTarget (branchTarget s.pc (s.reg rA) (s.reg rB) imm) = some e ∧
        t = s.takeFault (.boundsError e) := by
  cases ha : checkTarget (branchTarget s.pc (s.reg rA) (s.reg rB) imm) with
  | none => cases (exec_beq_ok ha).symm.trans h; exact .inl ⟨rfl, rfl⟩
  | some e => cases (exec_beq_error ha).symm.trans h; exact .inr ⟨e, rfl, rfl⟩

theorem exec_jalr {rA rB : Reg} {s t : State} (h : exec (.jalr rA rB) s = .next t) :
    (checkTarget (jalrTarget s.pc rA rB (s.reg rA)) = none ∧
        t = (s.setReg rB (jalrLink s.pc rA rB)).complete (jalrTarget s.pc rA rB (s.reg rA)).toNat) ∨
      ∃ e, checkTarget (jalrTarget s.pc rA rB (s.reg rA)) = some e ∧ t = s.takeFault (.boundsError e) := by
  cases ha : checkTarget (jalrTarget s.pc rA rB (s.reg rA)) with
  | none => cases (exec_jalr_ok ha).symm.trans h; exact .inl ⟨rfl, rfl⟩
  | some e => cases (exec_jalr_error ha).symm.trans h; exact .inr ⟨e, rfl, rfl⟩

theorem exec_halt {s t : State} (h : exec .halt s = .next t) :
    t = (s.complete (s.pc + 1)).finish .halted := by
  cases (exec_halt_eq s).symm.trans h; rfl

theorem exec_noop {s t : State} (h : exec .noop s = .next t) : t = s.complete (s.pc + 1) := by
  cases (exec_noop_eq s).symm.trans h; rfl

/-! ## Placing an instruction where it is fetched -/

theorem State.fetchPc_lt (s : State) : s.fetchPc < 65536 := by
  unfold State.fetchPc
  split
  · simpa using ‹_›
  · decide

/-- After placing a word the machine fetches it, from any state with a canonical memory. -/
theorem step_placeWord {s : State} (hm : s.mem.wf) (w : Word) :
    step (s.placeWord w) =
      match decode w with
      | .error e => .next ((s.placeWord w).takeFault (.decodeError e))
      | .ok i => exec i (s.placeWord w) := by
  have hw : (s.placeWord w).memWord (s.placeWord w).pc = w := by
    rw [State.placeWord_memWord hm]
    simp
  have hx : (s.placeWord w).pc < (s.placeWord w).ext := by
    simp only [State.placeWord_pc, State.placeWord_ext]
    split <;> omega
  rw [step_fetch rfl hx s.fetchPc_lt]
  cases hd : decode w with
  | error e => exact fetchExecute_error (hw.symm ▸ hd)
  | ok i => exact fetchExecute_ok (hw.symm ▸ hd)

end Sys2Proof.Machine
end

