-- ==== Sys2Proof/Tests/Slice0.lean ====
section
/-! SUPPORT. The model's own tests, their expected results taken from spec/95_test_vectors.md or worked out by hand from
the rule named, and for every statement with hypotheses a concrete input that meets them. -/

open Sys2Proof Sys2Proof.Machine

namespace Sys2Proof.Tests

/-! ## Helpers -/

/-- A harness state (95_test_vectors.md, D22): Running, count 0, given registers. -/
def mk (regs : Vector Word 8) (pc ext : Nat) (mem : Memory) : State :=
  { regs, pc, mem, ext, status := .running, instructionsExecuted := 0 }

/-- All registers 0. -/
def zeros : Vector Word 8 := #v[0, 0, 0, 0, 0, 0, 0, 0]

/-- The next state of an outcome. -/
def nextOf : Host.Outcome State Fault Refusal → Option State
  | .next t => some t
  | .fault _ => none
  | .refused _ => none

/-- A property of the next state, false where there is none. -/
def check (o : Host.Outcome State Fault Refusal) (p : State → Bool) : Bool :=
  match nextOf o with
  | some t => p t
  | none => false

theorem eq_next {o : Host.Outcome State Fault Refusal} {t : State} (h : nextOf o = some t) : o = .next t := by
  cases o with
  | next s => simpa [nextOf] using h
  | fault f => simp [nextOf] at h
  | refused r => simp [nextOf] at h

/-! ## WellFormed: an ill-formed term for each check -/

theorem test_wf_lw_low : (Instr.lw 0 1 (-32769)).wellFormed = false := by decide
theorem test_wf_lw_high : (Instr.lw 0 1 32768).wellFormed = false := by decide
theorem test_wf_sw_low : (Instr.sw 0 1 (-32769)).wellFormed = false := by decide
theorem test_wf_sw_high : (Instr.sw 0 1 32768).wellFormed = false := by decide
theorem test_wf_beq_low : (Instr.beq 0 1 (-32769)).wellFormed = false := by decide
theorem test_wf_beq_high : (Instr.beq 0 1 32768).wellFormed = false := by decide

/-! ## Decoding: words written out from the encodings of 30_encoding.md R66 and R76, and 95_test_vectors.md 2.1 -/

theorem test_decode_add : decode 0b0000000_000_111_110_0000000000000_101#32 = .ok (.add 7 6 5) := by decide
theorem test_decode_nand : decode 0b0000000_001_001_010_0000000000000_100#32 = .ok (.nand 1 2 4) := by decide
theorem test_decode_lw : decode 0b0000000_010_001_000_1000000000000000#32 = .ok (.lw 1 0 (-32768)) := by decide
theorem test_decode_sw : decode 0b0000000_011_000_011_0000000000001000#32 = .ok (.sw 0 3 8) := by decide
theorem test_decode_beq : decode 0b0000000_100_001_000_0111111111111111#32 = .ok (.beq 1 0 32767) := by decide
theorem test_decode_jalr : decode 0b0000000_101_100_111_1010101111001101#32 = .ok (.jalr 4 7) := by decide
theorem test_decode_halt : decode 0b0000000_110_111_111_1111111111111111#32 = .ok .halt := by decide
theorem test_decode_noop : decode 0b0000000_111_111_111_1111111111111111#32 = .ok .noop := by decide

/-- 95_test_vectors.md 2.1: the words with a BadDestReg. -/
theorem test_decode_badDestReg :
    ([0x00000008, 0x0000FFFF, 0x007FFFFF] : List Word).all (fun w => decode w = .error .badDestReg) = true := by
  decide

/-- 95_test_vectors.md 2.1: the words with a BadOpcode. -/
theorem test_decode_badOpcode :
    ([0x02000000, 0x03C00000, 0x7FFFFFFF, 0x80000000, 0xFE000000, 0xFFC00000, 0xFFFFFFFF] : List Word).all
      (fun w => decode w = .error .badOpcode) = true := by
  decide

/-- 95_test_vectors.md L1-1: the encoder's words. -/
theorem test_encode :
    [encode (.add 1 2 0), encode (.nand 1 2 4), encode (.lw 0 1 6), encode (.sw 0 3 8), encode (.beq 0 0 (-3)),
      encode (.jalr 4 7), encode .halt, encode .noop] =
    [0x000A0000, 0x004A0004, 0x00810006, 0x00C30008, 0x0100FFFD, 0x01670000, 0x01800000, 0x01C00000] := by
  decide

theorem test_decodeTableWord : decodeTableWord 32 0x004A0004 = some (.nand 1 2 4) := by decide

/-- 30_encoding.md R83: the notation. -/
theorem test_toAsm : (Instr.beq 0 0 (-3)).toAsm = "beq 0 0 -3" := by decide

/-- 30_encoding.md R83: `.fill -1`, and a value with no encoding. -/
theorem test_fill :
    (Stmt.fill (-1)).assemble = some 0xFFFFFFFF ∧ (Stmt.fill (2 ^ 32)).assemble = none := by decide

/-! ## One step, 95_test_vectors.md 2.2 to 2.5 -/

/-- A2: the sum wraps, roles swapped. -/
theorem test_add_wraps :
    check (step (mk #v[0x7FFFFFFF, 9, 1, 0, 0, 0, 0, 0] 0 1 [(0, 0x000A0000)]))
      (fun t => t.regs = #v[0x7FFFFFFF, 0x80000000, 1, 0, 0, 0, 0, 0] && t.pc = 1 && t.instructionsExecuted = 1) =
    true := by decide

/-- A6: the destination is also a source. -/
theorem test_add_aliased :
    check (step (mk #v[0, 2, 0, 5, 0, 0, 0, 0] 0 1 [(0, 0x001B0001)])) (fun t => t.reg 3 = 7 && t.reg 1 = 2) =
    true := by decide

/-- N3. -/
theorem test_nand :
    check (step (mk #v[0, 0x12345678, 0xFFFF0000, 0, 0, 0, 0, 0] 0 1 [(0, 0x004A0003)]))
      (fun t => t.reg 3 = 0xEDCBFFFF && t.pc = 1) = true := by decide

/-- 10_state.md R20: `x[0]` is written like any register. -/
theorem test_nand_x0 :
    check (step (mk zeros 0 1 [(0, 0x00480000)])) (fun t => t.reg 0 = 0xFFFFFFFF) = true := by decide

/-- M1: the highest address, above `ext`, which LW leaves. -/
theorem test_lw_top :
    check (step (mk #v[0, 65535, 0, 0, 0, 0, 0, 0] 0 8 [(0, 0x008A0000), (65535, 77)]))
      (fun t => t.reg 2 = 77 && t.ext = 8 && t.pc = 1) = true := by decide

/-- M4: address -1. -/
theorem test_lw_fault :
    check (step (mk zeros 0 8 [(0, 0x0082FFFF)]))
      (fun t => t.status = .faulted (.boundsError .memAddress) && t.pc = 0 && t.instructionsExecuted = 0) =
    true := by decide

/-- S4: the highest address, so `ext` becomes 65536. -/
theorem test_sw_grows :
    check (step (mk #v[0, 65535, 0, 1, 0, 0, 0, 0] 0 8 [(0, 0x00CB0000)]))
      (fun t => t.memWord 65535 = 1 && t.memWord 65534 = 0 && t.ext = 65536) = true := by decide

/-- S1: below the extent. Storing 0 over a listed word keeps the canonical form. -/
theorem test_sw_below :
    check (step (mk zeros 0 8 [(0, 0x00C30005), (5, 12)]))
      (fun t => t.mem = [(0, 0x00C30005)] && t.ext = 8) = true := by decide

/-- B1: taken, relative to the BEQ itself. -/
theorem test_beq_taken :
    check (step (mk zeros 5 65536 [(5, 0x0100FFFD)])) (fun t => t.pc = 2 && t.status = .running) = true := by decide

/-- B9: target 72767. -/
theorem test_beq_fault :
    check (step (mk zeros 40000 65536 [(40000, 0x01007FFF)]))
      (fun t => t.status = .faulted (.boundsError .pcTarget) && t.pc = 40000) = true := by decide

/-- J1 and J2: call, with ignored bits set. -/
theorem test_jalr :
    check (step (mk #v[0, 0, 0, 0, 5, 0, 0, 0] 2 65536 [(2, 0x0167ABCD)])) (fun t => t.reg 7 = 3 && t.pc = 5) =
    true := by decide

/-- J3 (L1-6): the self-jump leaves pc, not pc + 1. -/
theorem test_jalr_aliased :
    check (step (mk #v[0, 0, 0, 9, 0, 0, 0, 0] 5 65536 [(5, 0x015B0000)])) (fun t => t.reg 3 = 5 && t.pc = 5) =
    true := by decide

/-- H3: HALT at the last word leaves pc = 65536. -/
theorem test_halt :
    check (step (mk zeros 65535 65536 [(65535, 0x01800000)]))
      (fun t => t.pc = 65536 && t.status = .halted && t.instructionsExecuted = 1) = true := by decide

/-- O2. -/
theorem test_noop :
    check (step (mk zeros 7 65536 [(7, 0x01FFFFFF)])) (fun t => t.pc = 8 && t.status = .running) = true := by decide

/-- V1: the first step of a run on the empty image. -/
theorem test_exhausted :
    check (step State.reset) (fun t => t.status = .exhaustedMemory && t.pc = 0 && t.instructionsExecuted = 0) =
    true := by decide

/-- F2: a word that does not decode. -/
theorem test_decode_fault :
    check (step (mk zeros 0 1 [(0, 8)])) (fun t => t.status = .faulted (.decodeError .badDestReg) && t.pc = 0) =
    true := by decide

theorem test_withFetchWord :
    check (step (State.reset.withFetchWord 32 0x004A0004)) (fun t => t.reg 4 = 0xFFFFFFFF && t.pc = 1) = true := by
  decide

/-- The snapshot of a loaded state (60_exceptions.md R168). -/
theorem test_snapshot :
    check (State.load [5, 0, 7]) (fun t => t.snapshot.memory = [5, 0, 7] && t.snapshot.memoryExtent = 3) = true := by
  decide

/-! ## Witnesses: inputs that meet the statements' hypotheses, at the ends of their ranges -/

theorem witness_BadOpcodeExactlyWhenTopBitsSet :
    (0x01FFFFFF#32).extractLsb 31 25 = 0 ∧ decode 0x02000000#32 = .error .badOpcode := by decide

theorem witness_DestRegAboveSevenRejected :
    (opcodeOf 0x00000007 = some .add ∧ low16 0x00000007 ≤ 7) ∧ (opcodeOf 0x00000008 = some .add ∧ 7 < low16 0x00000008) ∧
    (opcodeOf 0x00400007 = some .nand ∧ low16 0x00400007 ≤ 7) ∧
    (opcodeOf 0x00400008 = some .nand ∧ 7 < low16 0x00400008) := by decide

theorem witness_OffsetIsSignExtendedLowField :
    (0xFFFF < 2 ^ 16) ∧ opcodeOf 0x00888000 = some .lw ∧ opcodeOf 0x00C37FFF = some .sw ∧
    opcodeOf 0x0108FFFF = some .beq := by decide

theorem witness_IgnoredFieldsAreNotRead :
    (opcodeOf 0x0167ABCD = some .jalr ∧ (0x01670000#32).extractLsb 31 16 = (0x0167ABCD#32).extractLsb 31 16) ∧
    (opcodeOf 0x01BFFFFF = some .halt ∧ (0x01800000#32).extractLsb 31 22 = (0x01BFFFFF#32).extractLsb 31 22) ∧
    (opcodeOf 0x01FFFFFF = some .noop ∧ (0x01C00000#32).extractLsb 31 22 = (0x01FFFFFF#32).extractLsb 31 22) := by
  decide

theorem witness_BadDestRegExactly :
    (0x02000008#32).extractLsb 31 25 ≠ 0 ∧ (0x02000008#32).extractLsb 15 3 ≠ 0 := by decide

theorem witness_DecodeEncodeRoundTrip :
    (Instr.lw 7 7 (-32768)).wellFormed = true ∧ (Instr.beq 0 0 32767).wellFormed = true ∧
    (Instr.add 7 0 7).wellFormed = true := by decide

theorem witness_EncodeDecodeClearsIgnoredBits :
    decode 0x0167ABCD = .ok (.jalr 4 7) ∧ decode 0x00BFFFFF = .ok (.lw 7 7 (-1)) := by decide

theorem witness_AssemblyMeansWhatItSays :
    (Instr.sw 0 3 8).wellFormed = true ∧ ((-32769 : Int) < -32768 ∨ (32767 : Int) < -32769) ∧
    ((32768 : Int) < -32768 ∨ (32767 : Int) < 32768) ∧
    (-(2 ^ 31) ≤ (-(2 ^ 31) : Int) ∧ (-(2 ^ 31) : Int) < 2 ^ 32) ∧ (-(2 ^ 31) ≤ (2 ^ 32 - 1 : Int)) ∧
    ((mk zeros 5 6 []).reg 0 = (mk zeros 5 6 []).reg 1 ∧ 65536 ≤ 65536) := by decide

theorem witness_RegistersStartAtZero : ∃ s, State.load [5, 0] = .next s := ⟨_, rfl⟩

theorem witness_LoadStartsTheRun :
    ([5, 0] : List Word).length ≤ 65536 ∧ 1 < ([5, 0] : List Word).length ∧ ([5, 0] : List Word).length ≤ 2 ∧
    65536 < (List.replicate 65537 (0 : Word)).length :=
  ⟨by decide, by decide, by decide, by rw [List.length_replicate]; decide⟩

theorem witness_InvariantAtReset : ∃ s, State.load [5] = .next s := ⟨_, rfl⟩

theorem witness_TranslatorIsExactAndBounded :
    ((0 : Word).toInt + (-1) < 0) ∧ (65536 ≤ (65535 : Word).toInt + 1) ∧
    ((-32768 : Int) ≤ -32768 ∧ (-32768 : Int) ≤ 32767) ∧ ((-32768 : Int) ≤ 32767) := by decide

theorem witness_LwLoadsTheWord :
    (0 ≤ (zeros.get 1).toInt + 0 ∧ (zeros.get 1).toInt + 0 < 65536) ∧
    ∃ s : State, 0 ≤ (s.reg 1).toInt + 0 ∧ (s.reg 1).toInt + 0 = 65535 :=
  ⟨by decide, mk #v[0, 65535, 0, 0, 0, 0, 0, 0] 0 1 [], by decide⟩

theorem witness_SwStoresTheWord :
    ∃ s : State, s.mem.wf ∧ translateAddr (s.reg 1) 0 = .ok 65535 ∧ s.ext ≤ 65535 ∧
      translateAddr (s.reg 0) 0 = .ok 0 ∧ 0 < s.ext :=
  ⟨mk #v[0, 65535, 0, 0, 0, 0, 0, 0] 0 1 [(0, 7)], by decide⟩

theorem witness_BadAddressFaultsWithoutEffect :
    ∃ s : State, (s.reg 0).toInt + (-1) < 0 ∧ 65536 ≤ (s.reg 1).toInt + 1 :=
  ⟨mk #v[0, 65535, 0, 0, 0, 0, 0, 0] 0 1 [], by decide⟩

theorem witness_BeqBranchesOnEquality :
    (∃ s : State, s.reg 0 = s.reg 2 ∧ (s.pc : Int) + (-5) = 0 ∧ (s.pc : Int) + (-5) ≤ 65536) ∧
    (∃ s : State, s.reg 0 = s.reg 2 ∧ 0 ≤ (s.pc : Int) + 1 ∧ (s.pc : Int) + 1 = 65536) ∧
    ∃ s : State, s.reg 0 ≠ s.reg 1 ∧ s.pc = 65535 :=
  ⟨⟨mk zeros 5 6 [], by decide⟩, ⟨mk zeros 65535 65536 [], by decide⟩,
    ⟨mk #v[0, 1, 0, 0, 0, 0, 0, 0] 65535 65536 [], by decide⟩⟩

theorem witness_JalrLinksAndJumps :
    ∃ s : State, (1 : Reg) ≠ 2 ∧ (s.reg 1).toInt = 65536 ∧ (s.reg 2).toInt = 0 :=
  ⟨mk #v[0, 65536, 0, 0, 0, 0, 0, 0] 1 2 [], by decide⟩

theorem witness_AliasedJalrLoopsInPlace :
    (∃ s : State, s.pc = 65536) ∧ ∃ s : State, s.AboutToRun (.jalr 3 3) :=
  ⟨⟨mk zeros 65536 65536 [], rfl⟩, ⟨mk zeros 5 6 [(5, 0x015B0000)], by decide⟩⟩

theorem witness_BadTargetFaultsWithoutEffect :
    (∃ s : State, s.reg 0 = s.reg 0 ∧ (s.pc : Int) + (-1) < 0) ∧
    (∃ s : State, s.reg 0 = s.reg 0 ∧ (s.pc : Int) + 2 = 65537) ∧
    ∃ s : State, (1 : Reg) ≠ 2 ∧ (s.reg 1).toInt = 65537 ∧ (s.reg 2).toInt = -1 :=
  ⟨⟨mk zeros 0 1 [], by decide⟩, ⟨mk zeros 65535 65536 [], by decide⟩,
    ⟨mk #v[0, 65537, 0xFFFFFFFF, 0, 0, 0, 0, 0] 1 2 [], by decide⟩⟩

theorem witness_BeqSelfLoopNeverEnds : ∃ s : State, s.AboutToRun (.beq 0 0 0) :=
  ⟨mk zeros 0 1 [(0, 0x01000000)], by decide⟩

theorem witness_StepRunsTheDecodedInstruction :
    ∃ s : State, s.status = .running ∧ s.pc < s.ext ∧ s.pc < 65536 ∧ decode (s.memWord s.pc) = .ok .halt :=
  ⟨mk zeros 65535 65536 [(65535, 0x01800000)], by decide⟩

theorem witness_StepEndsTheRun :
    (∃ s : State, s.status ≠ .running) ∧ (∃ s : State, s.status = .running ∧ s.ext ≤ s.pc) ∧
    ∃ s : State, s.status = .running ∧ s.pc < s.ext ∧ s.pc < 65536 ∧
      decode (s.memWord s.pc) = .error .badOpcode :=
  ⟨⟨State.reset.finish .halted, by decide⟩, ⟨mk zeros 2 2 [], by decide⟩, ⟨mk zeros 1 2 [(1, 0xFFFFFFFF)], by decide⟩⟩

theorem witness_TerminalStatesAreFinal :
    ∃ s : State, s.status ≠ .running ∧ s.status = .faulted (.decodeError .badOpcode) :=
  ⟨State.reset.takeFault (.decodeError .badOpcode), by decide⟩

/-- A HALT, a DecodeError, a MemAddress, a PcTarget and the end of memory. -/
theorem witness_StatusLeavesRunningOnlyAsListed :
    check (step (mk zeros 0 1 [(0, 0x01800000)])) (fun t => t.status = .halted) = true ∧
    check (step (mk zeros 0 1 [(0, 8)])) (fun t => t.status = .faulted (.decodeError .badDestReg)) = true ∧
    check (step (mk zeros 0 1 [(0, 0x0082FFFF)])) (fun t => t.status = .faulted (.boundsError .memAddress)) = true ∧
    check (step (mk zeros 0 1 [(0, 0x0100FFFF)])) (fun t => t.status = .faulted (.boundsError .pcTarget)) = true ∧
    check (step State.reset) (fun t => t.status = .exhaustedMemory) = true := by decide

theorem witness_FaultsCommitNothing :
    ∃ s t, step s = .next t ∧ t.status = .faulted (.boundsError .pcTarget) :=
  ⟨mk zeros 0 1 [(0, 0x0100FFFF)], _, rfl, rfl⟩

theorem witness_StepCountsCompletedInstructions :
    (∃ s t, step s = .next t ∧ t.status = .halted) ∧ (∃ s t, step s = .next t ∧ t.status = .exhaustedMemory) ∧
    ∃ s t, step s = .next t ∧ t.status = .faulted (.decodeError .badDestReg) :=
  ⟨⟨mk zeros 0 1 [(0, 0x01800000)], _, rfl, rfl⟩, ⟨State.reset, _, rfl, rfl⟩, ⟨mk zeros 0 1 [(0, 8)], _, rfl, rfl⟩⟩

theorem witness_CountIsNeverRead :
    (∃ s t, step s = .next t) ∧ ∃ s, step s = .fault .runEnded :=
  ⟨⟨State.reset, _, rfl⟩, ⟨State.reset.finish .halted, rfl⟩⟩

/-- Two states that differ in a register ADD does not read, before and after. -/
theorem witness_RegisterFileControl :
    ∃ s s' t t' : State, s ≠ s' ∧ s'.pc = s.pc ∧ s'.mem = s.mem ∧ s'.ext = s.ext ∧ s'.status = s.status ∧
      s'.instructionsExecuted = s.instructionsExecuted ∧
      (∀ q, src1Reg (.add 1 2 0) = some q ∨ src2Reg (.add 1 2 0) = some q → s'.reg q = s.reg q) ∧
      s.status = .running ∧ exec (.add 1 2 0) s = .next t ∧ exec (.add 1 2 0) s' = .next t' :=
  ⟨mk zeros 0 1 [], mk #v[0, 0, 0, 9, 0, 0, 0, 0] 0 1 [], _, _, by decide, rfl, rfl, rfl, rfl, rfl, by decide, rfl, rfl,
    rfl⟩

/-- A faulting LW and a completing NAND, for the table's rows on `we`. -/
theorem witness_RegisterFileControl_writes :
    (∃ s t, s.status = .running ∧ exec (.lw 0 2 (-1)) s = .next t ∧ t.status = .faulted (.boundsError .memAddress)) ∧
    ∃ s t, s.status = .running ∧ exec (.nand 0 0 5) s = .next t ∧ writeReg (.nand 0 0 5) = some 5 ∧
      ∀ f, t.status ≠ .faulted f :=
  ⟨⟨State.reset, _, rfl, rfl, by decide⟩, ⟨State.reset, _, rfl, rfl, rfl, fun _ => nofun⟩⟩

/-- `sw 0 3 5` then `lw 0 2 5`: the state of the store. -/
def storeThenLoad : State := mk #v[0, 0, 0, 12, 0, 0, 0, 0] 0 2 [(0, 0x00C30005), (1, 0x00820005)]

/-- The state after its store. -/
def stored : State := (storeThenLoad.storeWord 5 12).complete 1

theorem witness_LoadReturnsLatestStore :
    storeThenLoad.mem.wf ∧ storeThenLoad.AboutToRun (.sw 0 3 5) ∧ translateAddr (storeThenLoad.reg 0) 5 = .ok 5 ∧
    step storeThenLoad = .next stored ∧ QuietRun 5 stored stored ∧ stored.AboutToRun (.lw 0 2 5) ∧
    translateAddr (stored.reg 0) 5 = .ok 5 ∧
    ∃ s₀, State.load [0x00820001] = .next s₀ ∧ QuietRun 1 s₀ s₀ ∧ s₀.AboutToRun (.lw 0 2 1) ∧
      translateAddr (s₀.reg 0) 1 = .ok 1 :=
  ⟨by decide, by decide, by decide, eq_next (by decide), .refl _, by decide, by decide,
    ⟨_, rfl, .refl _, by decide, by decide⟩⟩

/-- `sw 0 3 1` at word 0 with a HALT word in `x[3]`: the very next fetch is of the word stored, above the old `ext`. -/
def storeNext : State := mk #v[0, 0, 0, 0x01800000, 0, 0, 0, 0] 0 1 [(0, 0x00C30001)]

theorem witness_StoredWordsAreFetched :
    ∃ s₁, storeNext.mem.wf ∧ storeNext.AboutToRun (.sw 0 3 1) ∧ translateAddr (storeNext.reg 0) 1 = .ok 1 ∧
      step storeNext = .next s₁ ∧ storeNext.ext ≤ 1 ∧ s₁.pc ≤ 1 ∧ QuietRun 1 s₁ s₁ ∧ s₁.status = .running ∧
      s₁.pc = 1 ∧ decode (storeNext.reg 3) = .ok .halt :=
  ⟨(storeNext.storeWord 1 0x01800000).complete 1, by decide, by decide, by decide, eq_next (by decide), by decide,
    by decide, .refl _, by decide, by decide, by decide⟩

/-- The same store of a word that does not decode. -/
def storeBad : State := mk #v[0, 0, 0, 0xFFFFFFFF, 0, 0, 0, 0] 0 1 [(0, 0x00C30001)]

theorem witness_StoredWordsAreFetched_bad :
    ∃ s₁, storeBad.mem.wf ∧ storeBad.AboutToRun (.sw 0 3 1) ∧ translateAddr (storeBad.reg 0) 1 = .ok 1 ∧
      step storeBad = .next s₁ ∧ QuietRun 1 s₁ s₁ ∧ s₁.status = .running ∧ s₁.pc = 1 ∧
      decode (storeBad.reg 3) = .error .badOpcode :=
  ⟨(storeBad.storeWord 1 0xFFFFFFFF).complete 1, by decide, by decide, by decide, eq_next (by decide), .refl _,
    by decide, by decide, by decide⟩

theorem witness_OnlyStoresChangeMemoryAndExtent :
    ∃ t, storeNext.mem.wf ∧ step storeNext = .next t ∧ t.memWord 1 ≠ storeNext.memWord 1 ∧
      t.ext ≠ storeNext.ext ∧ RunsTo storeNext t :=
  have h : step storeNext = .next ((storeNext.storeWord 1 0x01800000).complete 1) := eq_next (by decide)
  ⟨_, by decide, h, by decide, by decide, .head h (.refl _)⟩

theorem witness_StepKeepsInvariant : ∃ t, storeNext.Inv ∧ step storeNext = .next t :=
  ⟨(storeNext.storeWord 1 0x01800000).complete 1, by decide, eq_next (by decide)⟩

theorem witness_RunningStatesAlwaysStep :
    ∃ s₀, State.load [0x01C00000] = .next s₀ ∧ RunsTo s₀ (s₀.complete 1) ∧ (s₀.complete 1).status = .running :=
  ⟨_, rfl, .head (eq_next (by decide)) (.refl _), rfl⟩

theorem witness_StatusCodes : ∃ st : Status, st.stateCode = 3 := ⟨.faulted (.decodeError .badOpcode), rfl⟩

theorem witness_StepExposesTheCommittedState : ∃ t, step storeNext = .next t ∧ 1 < t.ext :=
  ⟨(storeNext.storeWord 1 0x01800000).complete 1, eq_next (by decide), by decide⟩

theorem witness_ReportDeterminesTheState :
    ∃ s t : State, s.Inv ∧ t.Inv ∧ s.snapshot = t.snapshot ∧ s.status = t.status :=
  ⟨storeNext, storeNext, by decide, by decide, rfl, rfl⟩

theorem witness_NextPcPerOpcode :
    (∃ s t, exec .noop s = .next t ∧ (∀ f, t.status ≠ .faulted f) ∧ Instr.noop.opcode ≠ .beq ∧
      Instr.noop.opcode ≠ .jalr) ∧
    (∃ s t, exec (.beq 0 0 0) s = .next t ∧ ∀ f, t.status ≠ .faulted f) ∧
    (∃ s t, exec (.jalr 4 7) s = .next t ∧ (∀ f, t.status ≠ .faulted f) ∧ (4 : Reg) ≠ 7) ∧
    (∃ s t, exec (.jalr 3 3) s = .next t ∧ ∀ f, t.status ≠ .faulted f) ∧ ∃ s t, exec .halt s = .next t :=
  ⟨⟨State.reset, _, rfl, fun _ => nofun, by decide, by decide⟩, ⟨State.reset, _, rfl, fun _ => nofun⟩,
    ⟨State.reset, _, rfl, fun _ => nofun, by decide⟩, ⟨State.reset, _, rfl, fun _ => nofun⟩, ⟨State.reset, _, rfl⟩⟩

theorem witness_RunningInvariantStatesStep : ∃ s : State, s.Inv ∧ s.status = .running :=
  ⟨mk zeros 65536 65536 [(65535, 7)], by decide⟩

end Sys2Proof.Tests
end

section
/-! PROOFS. What a terminal state, a reset state and a loaded state are (spec/10_state.md R23, R34). -/

namespace Sys2Proof.Machine

/-! ## Terminal states -/

/-- Only a Running state has a next state. -/
theorem step_ne_next_of_terminal {s : State} (hs : s.status ≠ .running) (t : State) : step s ≠ .next t := by
  intro h
  obtain ⟨hrun, -⟩ := step_cases h
  exact hs hrun

/-- A run from a terminal state takes no step, so it stays where it is. -/
theorem RunsTo.eq_of_terminal {s t : State} (hs : s.status ≠ .running) (h : RunsTo s t) : t = s := by
  cases h with
  | refl => rfl
  | head hstep _ => exact absurd hstep (step_ne_next_of_terminal hs _)

theorem State.report_of_terminal {s : State} (hs : s.status ≠ .running) :
    s.report = some (s.snapshot, s.status) := by
  rw [State.report, if_neg hs]

/-- Settles O31: the run control steps Running states only, so a run from a terminal state stays there, and the report
is the snapshot of that state. -/
theorem terminalStatesAreFinal : Obligations.TerminalStatesAreFinal := by
  intro s hs
  refine ⟨step_ne_next_of_terminal hs, fun t h => h.eq_of_terminal hs, State.report_of_terminal hs, ?_⟩
  exact ⟨rfl, rfl, rfl, rfl, rfl⟩

/-! ## Reset and load -/

/-- The start of a run: the image fits, and the state is reset's but for the memory and its extent
(spec/70_reset_and_hazards.md R180, R181). -/
theorem State.load_eq_next {img : List Word} {s : State} (h : State.load img = .next s) :
    img.length ≤ 65536 ∧ s = { State.reset with mem := Memory.ofImage 0 img, ext := img.length } := by
  unfold State.load at h
  split at h
  · case isTrue hfit =>
    cases h
    exact ⟨hfit, rfl⟩
  · cases h

theorem State.load_regs {img : List Word} {s : State} (h : State.load img = .next s) :
    s.regs = State.reset.regs := by
  obtain ⟨-, rfl⟩ := State.load_eq_next h
  rfl

theorem State.reset_reg (r : Reg) : State.reset.reg r = 0 := by
  revert r
  decide

/-- Settles O13: reset's register file reads 0 everywhere, and loading an image keeps it. -/
theorem registersStartAtZero : Obligations.RegistersStartAtZero := by
  refine ⟨State.reset_reg, fun img s h r => ?_⟩
  rw [State.reg, State.load_regs h]
  exact State.reset_reg r

end Sys2Proof.Machine
end

section
/-! PROOFS. What a step and a run do to the memory and its extent, and what LW and the fetch read of it
(spec/20_memory.md R54, R56). -/

namespace Sys2Proof.Machine

/-! ## What a step does to the memory -/

/-- Only a SW that completes touches the memory or its extent, and it does to them what `State.storeWord` does. -/
theorem exec_memory {i : Instr} {s t : State} (h : exec i s = .next t) :
    (t.mem = s.mem ∧ t.ext = s.ext) ∨
      ∃ rA rB imm a, i = .sw rA rB imm ∧ translateAddr (s.reg rA) imm = .ok a ∧
        t.mem = (s.storeWord a (s.reg rB)).mem ∧ t.ext = (s.storeWord a (s.reg rB)).ext := by
  cases i with
  | add rA rB rD => exact .inl (exec_add h ▸ ⟨rfl, rfl⟩)
  | nand rA rB rD => exact .inl (exec_nand h ▸ ⟨rfl, rfl⟩)
  | lw rA rB imm => rcases exec_lw h with ⟨a, -, rfl⟩ | ⟨e, -, rfl⟩ <;> exact .inl ⟨rfl, rfl⟩
  | sw rA rB imm =>
    rcases exec_sw h with ⟨a, ha, rfl⟩ | ⟨e, -, rfl⟩
    · exact .inr ⟨rA, rB, imm, a, rfl, ha, rfl, rfl⟩
    · exact .inl ⟨rfl, rfl⟩
  | beq rA rB imm => rcases exec_beq h with ⟨-, rfl⟩ | ⟨e, -, rfl⟩ <;> exact .inl ⟨rfl, rfl⟩
  | jalr rA rB => rcases exec_jalr h with ⟨-, rfl⟩ | ⟨e, -, rfl⟩ <;> exact .inl ⟨rfl, rfl⟩
  | halt => exact .inl (exec_halt h ▸ ⟨rfl, rfl⟩)
  | noop => exact .inl (exec_noop h ▸ ⟨rfl, rfl⟩)

/-- A step leaves the memory and its extent alone, or stores one word at the index that it `StoresTo`. -/
theorem step_memory {s t : State} (h : step s = .next t) :
    (t.mem = s.mem ∧ t.ext = s.ext) ∨
      ∃ a v, s.StoresTo a ∧ t.mem = (s.storeWord a v).mem ∧ t.ext = (s.storeWord a v).ext := by
  obtain ⟨hrun, ⟨-, rfl⟩ | ⟨hext, hcap, ⟨e, -, rfl⟩ | ⟨i, hdec, hexec⟩⟩⟩ := step_cases h
  · exact .inl ⟨rfl, rfl⟩
  · exact .inl ⟨rfl, rfl⟩
  · rcases exec_memory hexec with hsame | ⟨rA, rB, imm, a, rfl, ha, hstore⟩
    · exact .inl hsame
    · exact .inr ⟨a, s.reg rB, ⟨rA, rB, imm, ⟨⟨hrun, hext, hcap⟩, hdec⟩, ha⟩, hstore⟩

theorem step_wf {s t : State} (hm : s.mem.wf) (h : step s = .next t) : t.mem.wf := by
  rcases step_memory h with ⟨hmem, -⟩ | ⟨a, v, -, hmem, -⟩ <;> rw [hmem]
  · exact hm
  · exact State.storeWord_wf hm a v

theorem step_ext_le {s t : State} (h : step s = .next t) : s.ext ≤ t.ext := by
  rcases step_memory h with ⟨-, hext⟩ | ⟨a, v, -, -, hext⟩ <;> rw [hext]
  rw [State.storeWord_ext]
  split <;> omega

/-- A step that does not store to index `a` keeps its word. -/
theorem step_memWord_of_quiet {s t : State} {a : Nat} (hm : s.mem.wf) (quiet : ¬ s.StoresTo a)
    (h : step s = .next t) : t.memWord a = s.memWord a := by
  rcases step_memory h with ⟨hmem, -⟩ | ⟨b, v, hstores, hmem, -⟩ <;> rw [State.memWord, hmem]
  · rfl
  · have hne : a ≠ b := fun hab => quiet (hab ▸ hstores)
    exact (State.storeWord_memWord hm b v a).trans (if_neg hne)

/-! ## What a run does to the memory -/

theorem RunsTo.ext_le {s t : State} (h : RunsTo s t) : s.ext ≤ t.ext := by
  induction h with
  | refl => exact Nat.le_refl _
  | head hstep _ ih => exact Nat.le_trans (step_ext_le hstep) ih

theorem QuietRun.runsTo {a : Nat} {s t : State} (h : QuietRun a s t) : RunsTo s t := by
  induction h with
  | refl s => exact .refl s
  | head _ hstep _ ih => exact .head hstep ih

theorem QuietRun.memWord {a : Nat} {s t : State} (h : QuietRun a s t) (hm : s.mem.wf) :
    t.memWord a = s.memWord a := by
  induction h with
  | refl => rfl
  | head quiet hstep _ ih => exact (ih (step_wf hm hstep)).trans (step_memWord_of_quiet hm quiet hstep)

/-- After a store to `a`, and until the next one, index `a` holds the word stored and is live. -/
theorem QuietRun.of_storeWord {s t : State} {a n : Nat} {v : Word} (hm : s.mem.wf)
    (h : QuietRun a ((s.storeWord a v).complete n) t) : t.memWord a = v ∧ a < t.ext := by
  have hword := h.memWord (State.storeWord_wf hm a v)
  have hext := h.runsTo.ext_le
  rw [State.complete_memWord, State.storeWord_memWord hm, if_pos rfl] at hword
  rw [State.complete_ext, State.storeWord_ext] at hext
  refine ⟨hword, ?_⟩
  split at hext <;> omega

/-! ## The fetch, SW and LW as steps -/

theorem step_of_aboutToRun {s : State} {i : Instr} (h : s.AboutToRun i) : step s = exec i s := by
  obtain ⟨⟨hrun, hext, hcap⟩, hdec⟩ := h
  exact (step_fetch hrun hext hcap).trans (fetchExecute_ok hdec)

theorem step_sw {s t : State} {rA rB : Reg} {imm : Int} {a : Nat} (h : s.AboutToRun (.sw rA rB imm))
    (ha : translateAddr (s.reg rA) imm = .ok a) (hstep : step s = .next t) :
    t = (s.storeWord a (s.reg rB)).complete (s.pc + 1) := by
  rw [step_of_aboutToRun h, exec_sw_ok ha] at hstep
  cases hstep
  rfl

theorem step_lw {s : State} {rA rB : Reg} {imm : Int} {a : Nat} (h : s.AboutToRun (.lw rA rB imm))
    (ha : translateAddr (s.reg rA) imm = .ok a) : ∃ t, step s = .next t ∧ t.reg rB = s.memWord a := by
  rw [step_of_aboutToRun h, exec_lw_ok ha]
  exact ⟨_, rfl, State.setReg_reg_self s rB (s.memWord a)⟩

theorem State.load_wf {img : List Word} {s : State} (h : State.load img = .next s) : s.mem.wf := by
  obtain ⟨-, rfl⟩ := State.load_eq_next h
  exact Memory.wf_ofImage 0 img

/-- Settles O37: a run without a store to `a` keeps the word there, be it the word just stored or the image's, and LW
reads that word. -/
theorem loadReturnsLatestStore : Obligations.LoadReturnsLatestStore := by
  refine ⟨fun s s₁ t rA rB imm a hm hsw ha hstep hquiet => ?_, fun img s₀ t a hload hquiet => ?_⟩
  · obtain rfl := step_sw hsw ha hstep
    obtain ⟨hword, -⟩ := hquiet.of_storeWord hm
    exact ⟨hword, fun rA' rB' imm' hlw ha' => hword ▸ step_lw hlw ha'⟩
  · have hword := hquiet.memWord (State.load_wf hload)
    exact ⟨hword, fun rA' rB' imm' hlw ha' => hword ▸ step_lw hlw ha'⟩

/-- Settles O38: the word stored stays at its index, live, until the next store there, so a fetch at that index decodes
it; and a SW that raises `ext` stays Running, with every pc up to the index it stored to inside the new extent. -/
theorem storedWordsAreFetched : Obligations.StoredWordsAreFetched := by
  refine ⟨fun u i hfetch hdec => step_of_aboutToRun ⟨hfetch, hdec⟩, ?_⟩
  intro s s₁ t rA rB imm a hm hsw ha hstep
  obtain rfl := step_sw hsw ha hstep
  obtain ⟨-, hcap⟩ := translateAddr_eq_ok ha
  refine ⟨fun hgrow => ?_, fun hquiet hrun hpc => ?_⟩
  · obtain ⟨⟨hrun, -, -⟩, -⟩ := hsw
    have hext : (s.storeWord a (s.reg rB)).ext = a + 1 := if_pos hgrow
    exact ⟨hext, fun hle => ⟨hrun, hext ▸ Nat.lt_succ_of_le hle, Nat.lt_of_le_of_lt hle hcap⟩⟩
  · obtain ⟨hword, hlive⟩ := hquiet.of_storeWord hm
    rw [← hpc] at hword hlive hcap
    refine ⟨hpc ▸ hlive, fun i hdec => ?_, fun e hdec => ?_⟩
    · exact step_of_aboutToRun ⟨⟨hrun, hlive, hcap⟩, hword ▸ hdec⟩
    · rw [step_fetch hrun hlive hcap, fetchExecute_error (hword ▸ hdec)]
      exact ⟨_, rfl, rfl⟩

end Sys2Proof.Machine
end

section
/-! PROOFS. The decoder's fields: exact splits, bit slices, and what each format reads of the low field
(spec/30_encoding.md R68 to R75). -/

namespace Sys2Proof

/-! ## The extraction primitive -/

/-- Settles O2: quotient and remainder of one floor division, which the decoder's fields are by definition. -/
theorem takeFieldSplitsExactly : Obligations.TakeFieldSplitsExactly := by
  refine ⟨fun v shift => ?_, fun w => ⟨rfl, rfl, rfl⟩⟩
  have hpos : (0 : Int) < 2 ^ shift := by positivity
  rw [takeField_fst, takeField_snd]
  exact ⟨rfl, Int.ediv_mul_add_emod v _, Int.emod_nonneg v hpos.ne', Int.emod_lt_of_pos v hpos⟩

/-! ## Bit slices of a word as arithmetic on its unsigned value (spec/00_scope.md R8) -/

theorem slice_toNat (w : Word) (hi lo : Nat) :
    (w.extractLsb hi lo).toNat = w.toNat / 2 ^ lo % 2 ^ (hi - lo + 1) := by
  rw [BitVec.extractLsb_toNat, Nat.shiftRight_eq_div_pow]

/-- A slice that reaches bit 31 loses nothing above. -/
theorem slice_top_toNat (w : Word) {lo : Nat} (h : lo ≤ 31) : (w.extractLsb 31 lo).toNat = w.toNat / 2 ^ lo := by
  rw [slice_toNat, Nat.mod_eq_of_lt]
  apply Nat.div_lt_of_lt_mul
  rw [← Nat.pow_add, show lo + (31 - lo + 1) = 32 by omega]
  exact w.isLt

theorem div_eq_of_slice_top_eq {w w' : Word} {lo : Nat} (hlo : lo ≤ 31)
    (h : w'.extractLsb 31 lo = w.extractLsb 31 lo) : w'.toNat / 2 ^ lo = w.toNat / 2 ^ lo := by
  rw [← slice_top_toNat w' hlo, ← slice_top_toNat w hlo, h]

theorem below22_eq_slice (w : Word) : below22 w = (w.extractLsb 21 0).toNat := by
  rw [below22_eq, slice_toNat, Nat.pow_zero, Nat.div_one]

theorem regAField_eq_slice (w : Word) : regAField w = (w.extractLsb 21 19).toNat := by
  rw [regAField_eq, slice_toNat]
  rfl

theorem below19_eq_slice (w : Word) : below19 w = (w.extractLsb 18 0).toNat := by
  rw [below19_eq, slice_toNat, Nat.pow_zero, Nat.div_one]

theorem regBField_eq_slice (w : Word) : regBField w = (w.extractLsb 18 16).toNat := by
  rw [regBField_eq, slice_toNat]
  rfl

theorem low16_eq_slice (w : Word) : low16 w = (w.extractLsb 15 0).toNat := by
  rw [low16_eq, slice_toNat, Nat.pow_zero, Nat.div_one]

/-! ## The register fields -/

theorem below22_range (w : Word) : 0 ≤ below22 w ∧ below22 w < 2 ^ 22 := by
  rw [below22_eq]
  omega

theorem regAField_range (w : Word) : 0 ≤ regAField w ∧ regAField w ≤ 7 := by
  rw [regAField_eq]
  omega

theorem regBField_range (w : Word) : 0 ≤ regBField w ∧ regBField w ≤ 7 := by
  rw [regBField_eq]
  omega

/-- A field value in 0 to 7 is the index of the register it selects. -/
theorem regOfField_val_of_range {v : Int} (h0 : 0 ≤ v) (h : v ≤ 7) : ((regOfField v).val : Int) = v := by
  lift v to Nat using h0
  rw [regOfField_ofNat, Nat.mod_eq_of_lt (by omega)]

/-- Settles O3: each field is a shift of the remainder before it, which is a slice of the word, so three bits wide. -/
theorem registerFieldsAreBitSlices : Obligations.RegisterFieldsAreBitSlices := by
  intro w
  obtain ⟨hR0, hR⟩ := below22_range w
  obtain ⟨hA0, hA⟩ := regAField_range w
  obtain ⟨hB0, hB⟩ := regBField_range w
  refine ⟨below22_eq_slice w, hR0, hR, takeField_fst _ _, regAField_eq_slice w, hA0, hA, ?_, ?_⟩
  · exact regOfField_val_of_range hA0 hA
  · exact ⟨below19_eq_slice w, takeField_fst _ _, regBField_eq_slice w, hB0, hB, regOfField_val_of_range hB0 hB⟩

/-! ## Format R: destReg -/

theorem low16_range (w : Word) : 0 ≤ low16 w ∧ low16 w < 2 ^ 16 := by
  rw [low16_eq]
  omega

theorem seven_lt_low16_iff (w : Word) : 7 < low16 w ↔ w.extractLsb 15 3 ≠ 0 := by
  have hzero : (0 : BitVec (15 - 3 + 1)).toNat = 0 := rfl
  rw [low16_eq, Ne, ← BitVec.toNat_inj, slice_toNat, hzero]
  omega

theorem decodeR_ok (make : Reg → Reg → Reg → Instr) {w : Word} (h : low16 w ≤ 7) :
    decodeR make w = .ok (make (regOfField (regAField w)) (regOfField (regBField w)) (regOfField (low16 w))) :=
  if_neg (Int.not_lt.mpr h)

theorem decodeR_error (make : Reg → Reg → Reg → Instr) {w : Word} (h : 7 < low16 w) :
    decodeR make w = .error .badDestReg :=
  if_pos h

/-- Format R reads destReg from the whole low field, whatever instruction it makes (spec/30_encoding.md R72). -/
theorem decodeR_destReg (make : Reg → Reg → Reg → Instr) (w : Word) :
    (low16 w ≤ 7 → ∃ rD : Reg, (rD.val : Int) = low16 w ∧
      decodeR make w = .ok (make (regOfField (regAField w)) (regOfField (regBField w)) rD)) ∧
    (7 < low16 w → decodeR make w = .error .badDestReg) := by
  obtain ⟨h0, -⟩ := low16_range w
  exact ⟨fun h => ⟨_, regOfField_val_of_range h0 h, decodeR_ok make h⟩, decodeR_error make⟩

/-- Settles O5: ADD and NAND both decode by format R, whose destReg test is whether bits 15:3 are all 0. -/
theorem destRegAboveSevenRejected : Obligations.DestRegAboveSevenRejected := by
  refine fun w => ⟨seven_lt_low16_iff w, fun hadd => ?_, fun hnand => ?_⟩
  · rw [decode_add hadd]
    exact decodeR_destReg .add w
  · rw [decode_nand hnand]
    exact decodeR_destReg .nand w

/-! ## Format I: the offset -/

theorem testBit_fifteen {u : Nat} (h : u < 2 ^ 16) : u.testBit 15 = true ↔ 2 ^ 15 ≤ u := by
  rw [Nat.testBit_eq_decide_div_mod_eq, decide_eq_true_eq]
  omega

theorem sext16_eq_testBit {u : Nat} (h : u < 2 ^ 16) :
    sext16 u = if u.testBit 15 then (u : Int) - 2 ^ 16 else (u : Int) := by
  simp only [sext16, testBit_fifteen h]
  norm_cast

/-- `sext_16` is the two's-complement value of the 16-bit pattern. -/
theorem sext16_eq_toInt {u : Nat} (h : u < 2 ^ 16) : sext16 u = (BitVec.ofNat 16 u).toInt := by
  rw [sext16, BitVec.toInt_eq_toNat_cond, BitVec.toNat_ofNat, Nat.mod_eq_of_lt h]
  split <;> split <;> omega

/-- Settles O6: sign extension is total on 16-bit values, and format I makes its offset of the low field with no test. -/
theorem offsetIsSignExtendedLowField : Obligations.OffsetIsSignExtendedLowField := by
  refine ⟨fun u h => ?_, rfl, rfl, rfl, rfl, fun w => ?_⟩
  · exact ⟨sext16_eq_testBit h, sext16_eq_toInt h, sext16_range (by omega) (by omega)⟩
  · exact ⟨low16_eq_slice w, decode_lw, decode_sw, decode_beq⟩

/-! ## Formats J and O: ignored bits -/

theorem opcodeOf_congr {w w' : Word} {op : Opcode} (h : w'.toNat / 2 ^ 22 = w.toNat / 2 ^ 22)
    (hop : opcodeOf w = some op) : opcodeOf w' = some op := by
  rw [opcodeOf_iff] at hop ⊢
  rw [h, hop]

theorem decode_jalr_congr {w w' : Word} (hop : opcodeOf w = some .jalr)
    (h : w'.toNat / 2 ^ 16 = w.toNat / 2 ^ 16) : decode w' = decode w := by
  have hA : regAField w' = regAField w := by
    rw [regAField_eq, regAField_eq]
    omega
  have hB : regBField w' = regBField w := by rw [regBField_eq, regBField_eq, h]
  have hop' : opcodeOf w' = some .jalr := opcodeOf_congr (by omega) hop
  rw [decode_jalr hop', decode_jalr hop, hA, hB]

/-- Settles O7: JALR reads the opcode and the register fields, all above bit 15; HALT and NOOP read the opcode alone. -/
theorem ignoredFieldsAreNotRead : Obligations.IgnoredFieldsAreNotRead := by
  refine ⟨fun w => decode_jalr, fun w w' hop h => ?_, fun w => decode_halt, fun w => decode_noop, ?_⟩
  · exact decode_jalr_congr hop (div_eq_of_slice_top_eq (by decide) h)
  · intro w w' hop hslice
    have h := div_eq_of_slice_top_eq (by decide) hslice
    rcases hop with hhalt | hnoop
    · rw [decode_halt hhalt, decode_halt (opcodeOf_congr h hhalt)]
    · rw [decode_noop hnoop, decode_noop (opcodeOf_congr h hnoop)]

end Sys2Proof
end

section
/-! PROOFS. NAND: the ALU function bit by bit, and the frame of an instruction that completes by writing one register
(spec/40_alu.md R97, R98). -/

namespace Sys2Proof.Machine

/-! ## The ALU's NAND -/

/-- Each result bit depends on the two operand bits at its place only (spec/40_alu.md R97). -/
theorem alu_nand_getLsbD (a b : Word) {k : Nat} (hk : k < 32) :
    (alu .nand a b).getLsbD k = !(a.getLsbD k && b.getLsbD k) := by
  rw [alu_nand, BitVec.getLsbD_not, BitVec.getLsbD_and, decide_eq_true hk, Bool.true_and]

/-! ## Completing with one register written -/

theorem State.setReg_complete_reg_self (s : State) (r : Reg) (v : Word) (n : Nat) :
    ((s.setReg r v).complete n).reg r = v := by
  rw [State.complete_reg, State.setReg_reg_self]

theorem State.setReg_complete_sameRegsBut (s : State) (r : Reg) (v : Word) (n : Nat) :
    SameRegsBut r s ((s.setReg r v).complete n) := by
  intro q hq
  rw [State.complete_reg, State.setReg_reg_ne s v hq]

theorem State.setReg_complete_sameMemory (s : State) (r : Reg) (v : Word) (n : Nat) :
    SameMemory s ((s.setReg r v).complete n) :=
  ⟨fun _ => rfl, rfl, rfl⟩

/-- Settles O17: NAND completes with the ALU's output written to `x[rD]`, both operands read before the write. -/
theorem nandIsBitwise : Obligations.NandIsBitwise := by
  intro rA rB rD s
  let v := alu .nand (s.reg rA) (s.reg rB)
  have hrD := State.setReg_complete_reg_self s rD v (s.pc + 1)
  have hregs := State.setReg_complete_sameRegsBut s rD v (s.pc + 1)
  have hmem := State.setReg_complete_sameMemory s rD v (s.pc + 1)
  refine ⟨_, exec_nand_eq rA rB rD s, hrD, fun k hk => ?_, hregs, hmem, rfl⟩
  rw [hrD, alu_nand_getLsbD _ _ hk]

end Sys2Proof.Machine
end

section
/-! PROOFS. The next pc: what the PC logic's `next_pc` is per opcode and how a completing instruction commits it, and
the aliased JALR, which jumps to itself (spec/42_control.md R126, R132). -/

namespace Sys2Proof.Machine

/-! ## The PC logic's `next_pc` -/

/-- Only BEQ and JALR compute a target; the sequential advance is everyone else's (spec/42_control.md R126). -/
theorem nextPc_of_sequential {i : Instr} (hbeq : i.opcode ≠ .beq) (hjalr : i.opcode ≠ .jalr) (pc : Nat)
    (a b : Word) : nextPc i pc a b = pc + 1 := by
  cases i with
  | beq rA rB imm => exact absurd rfl hbeq
  | jalr rA rB => exact absurd rfl hjalr
  | _ => rfl

theorem nextPc_beq (rA rB : Reg) (imm : Int) (pc : Nat) (a b : Word) :
    nextPc (.beq rA rB imm) pc a b = if a = b then pc + imm else (pc : Int) + 1 := by
  split
  · case isTrue h => exact branchTarget_eq h
  · case isFalse h => exact branchTarget_ne h

/-- The target check keeps `next_pc` from going negative, so the pc committed is `next_pc` itself. -/
theorem nextPc_nonneg {i : Instr} {s : State} (h : raised i s = none) :
    0 ≤ nextPc i s.pc (src1 i s) (src2 i s) := by
  cases i with
  | beq rA rB imm => exact (checkTarget_eq_none (raised_beq rA rB imm s ▸ h)).1
  | jalr rA rB => exact (checkTarget_eq_none (raised_jalr rA rB s ▸ h)).1
  | _ => exact Int.natCast_nonneg (s.pc + 1)

/-! ## The pc of an instruction that completes -/

/-- HALT raises nothing, so its status never hides a fault. -/
theorem exec_of_raised {i : Instr} {s : State} {e : BoundsErr} (h : raised i s = some e) :
    exec i s = .next (s.takeFault (.boundsError e)) := by
  cases i with
  | halt => cases h
  | _ => exact congrArg Host.Outcome.next (retired_fault h)

/-- HALT's status aside, every meaning's next state is the retired one. -/
theorem exec_pc {i : Instr} {s t : State} (h : exec i s = .next t) : t.pc = (retired i s).pc := by
  cases i <;> cases h <;> rfl

theorem retired_of_raised_none {i : Instr} {s : State} (h : raised i s = none) : retired i s = committed i s := by
  rw [retired, h]

theorem exec_pc_of_raised_none {i : Instr} {s t : State} (hr : raised i s = none) (h : exec i s = .next t) :
    t.pc = (nextPc i s.pc (src1 i s) (src2 i s)).toNat := by
  rw [exec_pc h, retired_of_raised_none hr, committed, State.complete_pc]

/-- An instruction that completes raises nothing and commits the PC logic's `next_pc`. -/
theorem exec_pc_of_not_faulted {i : Instr} {s t : State} (h : exec i s = .next t)
    (hok : ∀ f, t.status ≠ .faulted f) : (t.pc : Int) = nextPc i s.pc (src1 i s) (src2 i s) := by
  cases hr : raised i s with
  | none => rw [exec_pc_of_raised_none hr h, Int.toNat_of_nonneg (nextPc_nonneg hr)]
  | some e =>
    cases (exec_of_raised hr).symm.trans h
    exact absurd rfl (hok (.boundsError e))

/-- Settles O45: a completing instruction's pc is `next_pc`, which the PC logic gives per opcode; HALT's next state is
Halted, so it has no step. -/
theorem nextPcPerOpcode : Obligations.NextPcPerOpcode := by
  refine ⟨fun i s t => exec_pc_of_not_faulted, fun i s t h hok hbeq hjalr => ?_, fun rA rB imm s t h hok => ?_,
    fun rA rB s t h hok => ?_, fun s t h => ?_⟩
  · have hpc := exec_pc_of_not_faulted h hok
    rw [nextPc_of_sequential hbeq hjalr] at hpc
    exact_mod_cast hpc
  · exact (exec_pc_of_not_faulted h hok).trans (nextPc_beq rA rB imm s.pc (s.reg rA) (s.reg rB))
  · have hpc : (t.pc : Int) = jalrTarget s.pc rA rB (s.reg rA) := exec_pc_of_not_faulted h hok
    refine ⟨fun hne => hpc.trans (jalrTarget_ne hne), ?_⟩
    rintro rfl
    exact_mod_cast hpc.trans (jalrTarget_self s.pc rA (s.reg rA))
  · obtain rfl := exec_halt h
    exact step_ne_next_of_terminal nofun

/-! ## The aliased JALR -/

/-- What the aliased JALR at `s.pc` leads to, once or many times over: `s` with `pc` in `x[r]`, at any count. -/
structure JalrLoop (r : Reg) (s t : State) : Prop where
  link : t.reg r = word32 s.pc
  pc : t.pc = s.pc
  regs : SameRegsBut r s t
  memory : SameMemory s t

theorem JalrLoop.trans {r : Reg} {s t u : State} (hst : JalrLoop r s t) (htu : JalrLoop r t u) : JalrLoop r s u where
  link := htu.link.trans (congrArg (fun n : Nat => word32 n) hst.pc)
  pc := htu.pc.trans hst.pc
  regs q hq := (htu.regs q hq).trans (hst.regs q hq)
  memory := by
    obtain ⟨hword, hext, hstatus⟩ := hst.memory
    obtain ⟨hword', hext', hstatus'⟩ := htu.memory
    exact ⟨fun a => (hword' a).trans (hword a), hext'.trans hext, hstatus'.trans hstatus⟩

/-- The target is `pc` itself, so the target check passes wherever pc may be. -/
theorem exec_jalr_self (r : Reg) {s : State} (hpc : s.pc ≤ 65536) :
    ∃ t, exec (.jalr r r) s = .next t ∧ JalrLoop r s t := by
  have htarget : checkTarget (jalrTarget s.pc r r (s.reg r)) = none := by
    rw [jalrTarget_self]
    exact checkTarget_none (by omega) (by omega)
  refine ⟨_, exec_jalr_ok htarget, ?_⟩
  rw [jalrTarget_self, jalrLink_self, Int.toNat_natCast]
  exact ⟨State.setReg_complete_reg_self .., rfl, State.setReg_complete_sameRegsBut s r _ s.pc,
    State.setReg_complete_sameMemory ..⟩

/-- What the next fetch reads is the pc, the memory, its extent and the status. -/
theorem State.AboutToRun.of_sameMemory {s t : State} {i : Instr} (h : s.AboutToRun i) (hpc : t.pc = s.pc)
    (hmem : SameMemory s t) : t.AboutToRun i := by
  obtain ⟨hword, hext, hstatus⟩ := hmem
  rw [State.AboutToRun, State.Fetches, hword, hext, hstatus, hpc]
  exact h

theorem run_succ_of_step {M : Host.Core} {s t : M.State} (h : M.step s = .next t) (k : Nat) :
    M.run (k + 1) s = M.run k t := by
  rw [Host.Core.run, h]

theorem step_jalrLoop {r : Reg} {s : State} (h : s.AboutToRun (.jalr r r)) :
    ∃ t, step s = .next t ∧ JalrLoop r s t := by
  rw [step_of_aboutToRun h]
  obtain ⟨⟨-, -, hcap⟩, -⟩ := h
  exact exec_jalr_self r (Nat.le_of_lt hcap)

/-- Each step leads to a state about to run the same JALR again. -/
theorem run_jalrLoop {r : Reg} (k : Nat) {s : State} (h : s.AboutToRun (.jalr r r)) :
    ∃ t : State, Host.Core.run core (k + 1) s = .next t ∧ JalrLoop r s t := by
  induction k generalizing s with
  | zero =>
    obtain ⟨t, hstep, hloop⟩ := step_jalrLoop h
    exact ⟨t, run_succ_of_step (M := core) hstep 0, hloop⟩
  | succ k ih =>
    obtain ⟨t, hstep, hloop⟩ := step_jalrLoop h
    obtain ⟨u, hrun, hloop'⟩ := ih (h.of_sameMemory hloop.pc hloop.memory)
    exact ⟨u, (run_succ_of_step (M := core) hstep (k + 1)).trans hrun, hloop.trans hloop'⟩

/-- Settles O24: the aliased JALR links and jumps to its own pc and leaves what the fetch reads alone, so every step of
the run is the same JALR. -/
theorem aliasedJalrLoopsInPlace : Obligations.AliasedJalrLoopsInPlace := by
  refine ⟨fun r s hpc => ?_, fun r s h k => ?_⟩
  · obtain ⟨t, hexec, hloop⟩ := exec_jalr_self r hpc
    exact ⟨t, hexec, hloop.link, hloop.pc, hloop.regs, hloop.memory⟩
  · obtain ⟨t, hrun, hloop⟩ := run_jalrLoop k h
    obtain ⟨⟨hrunning, -, -⟩, -⟩ := h.of_sameMemory hloop.pc hloop.memory
    exact ⟨t, hrun, hloop.link, hloop.pc, hrunning, hloop.regs, hloop.memory⟩

end Sys2Proof.Machine
end

section
/-! PROOFS. The encoder against the decoder: an encoded instruction decodes to itself, and what words decode to what
(spec/30_encoding.md sections 2, 3, 5 and 6). -/

namespace Sys2Proof

/-! ## The fields of an encoded word (spec/30_encoding.md R81) -/

section
variable (op : Opcode) (rA rB : Reg) {x : Int}

theorem opcodeOf_encodeBase_add (h0 : 0 ≤ x) (h : x < 2 ^ 16) :
    opcodeOf (word32 (encodeBase op rA rB + x)) = some op :=
  (opcodeOf_iff _ op).2 (encodeBase_add_parts op rA rB h0 h)

theorem regAField_encodeBase_add (h0 : 0 ≤ x) (h : x < 2 ^ 16) :
    regAField (word32 (encodeBase op rA rB + x)) = (rA.val : Int) := by
  have hw := encodeBase_add_toNat op rA rB h0 h
  rw [regAField_eq]
  simp only [encodeBase] at hw ⊢
  omega

theorem regBField_encodeBase_add (h0 : 0 ≤ x) (h : x < 2 ^ 16) :
    regBField (word32 (encodeBase op rA rB + x)) = (rB.val : Int) := by
  have hw := encodeBase_add_toNat op rA rB h0 h
  rw [regBField_eq]
  simp only [encodeBase] at hw ⊢
  omega

theorem low16_encodeBase_add (h0 : 0 ≤ x) (h : x < 2 ^ 16) : low16 (word32 (encodeBase op rA rB + x)) = x := by
  have hw := encodeBase_add_toNat op rA rB h0 h
  rw [low16_eq]
  simp only [encodeBase] at hw ⊢
  omega

/-- Format R puts a register in the low field and reads it back. -/
theorem decodeR_encodeBase_add (make : Reg → Reg → Reg → Instr) (rD : Reg) :
    decodeR make (word32 (encodeBase op rA rB + rD.val)) = .ok (make rA rB rD) := by
  have h0 : (0 : Int) ≤ rD.val := by omega
  have h : (rD.val : Int) < 2 ^ 16 := by omega
  have hlow := low16_encodeBase_add op rA rB h0 h
  rw [decodeR_ok make (by omega), hlow, regAField_encodeBase_add op rA rB h0 h, regBField_encodeBase_add op rA rB h0 h,
    regOfField_val, regOfField_val, regOfField_val]

/-- Format I puts the offset modulo 2^16 in the low field, and sign extension undoes it. -/
theorem decodeI_encodeBase_add (make : Reg → Reg → Int → Instr) {imm : Int} (hwf : offsetInRange imm = true) :
    decodeI make (word32 (encodeBase op rA rB + imm % 2 ^ 16)) = .ok (make rA rB imm) := by
  obtain ⟨hlo, hhi⟩ := (offsetInRange_iff imm).1 hwf
  have h0 : 0 ≤ imm % 2 ^ 16 := Int.emod_nonneg imm (by decide)
  have h : imm % 2 ^ 16 < 2 ^ 16 := Int.emod_lt_of_pos imm (by decide)
  rw [decodeI, low16_encodeBase_add op rA rB h0 h, regAField_encodeBase_add op rA rB h0 h,
    regBField_encodeBase_add op rA rB h0 h, sext16_mod hlo hhi, regOfField_val, regOfField_val]

end

/-- The base alone has the low field 0. -/
theorem decode_encode_jalr (rA rB : Reg) : decode (encode (.jalr rA rB)) = .ok (.jalr rA rB) := by
  have hbase : encode (.jalr rA rB) = word32 (encodeBase .jalr rA rB + 0) := by rw [encode, Int.add_zero]
  rw [hbase, decode_jalr (opcodeOf_encodeBase_add .jalr rA rB le_rfl (by decide)),
    regAField_encodeBase_add .jalr rA rB le_rfl (by decide), regBField_encodeBase_add .jalr rA rB le_rfl (by decide),
    regOfField_val, regOfField_val]

/-- The encoder's word has the instruction's opcode. -/
theorem opcodeOf_encode {i : Instr} (hwf : i.wellFormed = true) : opcodeOf (encode i) = some i.opcode := by
  rw [opcodeOf_iff]
  cases i with
  | add rA rB rD => exact Laws.EncodeFits.add rA rB rD hwf
  | nand rA rB rD => exact Laws.EncodeFits.nand rA rB rD hwf
  | lw rA rB imm => exact Laws.EncodeFits.lw rA rB imm hwf
  | sw rA rB imm => exact Laws.EncodeFits.sw rA rB imm hwf
  | beq rA rB imm => exact Laws.EncodeFits.beq rA rB imm hwf
  | jalr rA rB => exact Laws.EncodeFits.jalr rA rB hwf
  | halt => exact Laws.EncodeFits.halt hwf
  | noop => exact Laws.EncodeFits.noop hwf

theorem decode_encode {i : Instr} (hwf : i.wellFormed = true) : decode (encode i) = .ok i := by
  have hop := opcodeOf_encode hwf
  cases i with
  | add rA rB rD => exact (decode_add hop).trans (decodeR_encodeBase_add .add rA rB .add rD)
  | nand rA rB rD => exact (decode_nand hop).trans (decodeR_encodeBase_add .nand rA rB .nand rD)
  | lw rA rB imm => exact (decode_lw hop).trans (decodeI_encodeBase_add .lw rA rB .lw hwf)
  | sw rA rB imm => exact (decode_sw hop).trans (decodeI_encodeBase_add .sw rA rB .sw hwf)
  | beq rA rB imm => exact (decode_beq hop).trans (decodeI_encodeBase_add .beq rA rB .beq hwf)
  | jalr rA rB => exact decode_encode_jalr rA rB
  | halt => exact decode_halt hop
  | noop => exact decode_noop hop

/-- Settles O10: the encoded word has the instruction's opcode, and each format reads back the fields that the encoder
put in their places. -/
theorem decodeEncodeRoundTrip : Obligations.DecodeEncodeRoundTrip := fun _ hwf => decode_encode hwf

/-- Settles O1: the decoder, run on each word. -/
theorem specWordsDecode : Obligations.SpecWordsDecode := by
  refine ⟨?_, ?_, ?_, ?_, ?_, ?_, ?_, ?_⟩ <;> decide

/-! ## What a word decodes to, by its opcode -/

/-- The instruction that a word's fields spell under an opcode (spec/30_encoding.md R77). -/
def instrOf (w : Word) : Opcode → Instr
  | .add => .add (regOfField (regAField w)) (regOfField (regBField w)) (regOfField (low16 w))
  | .nand => .nand (regOfField (regAField w)) (regOfField (regBField w)) (regOfField (low16 w))
  | .lw => .lw (regOfField (regAField w)) (regOfField (regBField w)) (sext16 (low16 w))
  | .sw => .sw (regOfField (regAField w)) (regOfField (regBField w)) (sext16 (low16 w))
  | .beq => .beq (regOfField (regAField w)) (regOfField (regBField w)) (sext16 (low16 w))
  | .jalr => .jalr (regOfField (regAField w)) (regOfField (regBField w))
  | .halt => .halt
  | .noop => .noop

/-- Format R is the one whose low field can be illegal (spec/30_encoding.md R72). -/
def FitsDestReg (w : Word) (op : Opcode) : Prop := op = .add ∨ op = .nand → low16 w ≤ 7

theorem instrOf_opcode (w : Word) (op : Opcode) : (instrOf w op).opcode = op := by cases op <;> rfl

theorem decodeR_cases (make : Reg → Reg → Reg → Instr) (w : Word) :
    (low16 w ≤ 7 ∧ decodeR make w =
      .ok (make (regOfField (regAField w)) (regOfField (regBField w)) (regOfField (low16 w)))) ∨
    (7 < low16 w ∧ decodeR make w = .error .badDestReg) := by
  by_cases hlow : 7 < low16 w
  · exact .inr ⟨hlow, decodeR_error make hlow⟩
  · exact .inl ⟨Int.not_lt.1 hlow, decodeR_ok make (Int.not_lt.1 hlow)⟩

/-- A word with an opcode decodes to the instruction its fields spell, or is a BadDestReg. -/
theorem decode_of_opcodeOf {w : Word} {op : Opcode} (hop : opcodeOf w = some op) :
    (FitsDestReg w op ∧ decode w = .ok (instrOf w op)) ∨
      ((op = .add ∨ op = .nand) ∧ 7 < low16 w ∧ decode w = .error .badDestReg) := by
  cases op with
  | add =>
    rw [decode_add hop]
    exact (decodeR_cases .add w).imp (fun ⟨hlow, hdec⟩ => ⟨fun _ => hlow, hdec⟩) fun h => ⟨.inl rfl, h⟩
  | nand =>
    rw [decode_nand hop]
    exact (decodeR_cases .nand w).imp (fun ⟨hlow, hdec⟩ => ⟨fun _ => hlow, hdec⟩) fun h => ⟨.inr rfl, h⟩
  | lw => exact .inl ⟨nofun, decode_lw hop⟩
  | sw => exact .inl ⟨nofun, decode_sw hop⟩
  | beq => exact .inl ⟨nofun, decode_beq hop⟩
  | jalr => exact .inl ⟨nofun, decode_jalr hop⟩
  | halt => exact .inl ⟨nofun, decode_halt hop⟩
  | noop => exact .inl ⟨nofun, decode_noop hop⟩

theorem decode_eq_ok_iff (w : Word) (i : Instr) :
    decode w = .ok i ↔ opcodeOf w = some i.opcode ∧ FitsDestReg w i.opcode ∧ i = instrOf w i.opcode := by
  constructor
  · intro h
    cases hop : opcodeOf w with
    | none => cases (decode_none hop).symm.trans h
    | some op =>
      rcases decode_of_opcodeOf hop with ⟨hfit, hdec⟩ | ⟨-, -, hdec⟩
      · cases hdec.symm.trans h
        rw [instrOf_opcode]
        exact ⟨rfl, hfit, rfl⟩
      · cases hdec.symm.trans h
  · rintro ⟨hop, hfit, hi⟩
    rcases decode_of_opcodeOf hop with ⟨-, hdec⟩ | ⟨hR, hlow, -⟩
    · rw [hdec, ← hi]
    · exact absurd (hfit hR) (Int.not_le.2 hlow)

theorem decode_eq_badOpcode_iff (w : Word) : decode w = .error .badOpcode ↔ opcodeOf w = none := by
  refine ⟨fun h => ?_, decode_none⟩
  cases hop : opcodeOf w with
  | none => rfl
  | some op => rcases decode_of_opcodeOf hop with ⟨-, hdec⟩ | ⟨-, -, hdec⟩ <;> cases hdec.symm.trans h

theorem decode_eq_badDestReg_iff (w : Word) :
    decode w = .error .badDestReg ↔ (opcodeOf w = some .add ∨ opcodeOf w = some .nand) ∧ 7 < low16 w := by
  constructor
  · intro h
    cases hop : opcodeOf w with
    | none => cases (decode_none hop).symm.trans h
    | some op =>
      rcases decode_of_opcodeOf hop with ⟨-, hdec⟩ | ⟨hR, hlow, -⟩
      · cases hdec.symm.trans h
      · exact ⟨hR.imp (congrArg some) (congrArg some), hlow⟩
  · rintro ⟨hadd | hnand, hlow⟩
    · rw [decode_add hadd, decodeR_error _ hlow]
    · rw [decode_nand hnand, decodeR_error _ hlow]

/-! ## BadOpcode and BadDestReg as bit slices (spec/30_encoding.md sections 2 and 5) -/

theorem slice_eq_ofNat_iff (w : Word) (hi lo n : Nat) :
    w.extractLsb hi lo = BitVec.ofNat _ n ↔ w.toNat / 2 ^ lo % 2 ^ (hi - lo + 1) = n % 2 ^ (hi - lo + 1) := by
  rw [← BitVec.toNat_inj, slice_toNat, BitVec.toNat_ofNat]

theorem opcodeOf_none_iff_slice (w : Word) : opcodeOf w = none ↔ w.extractLsb 31 25 ≠ 0 := by
  have hw := w.isLt
  have hslice := slice_eq_ofNat_iff w 31 25 0
  rw [opcodeOf_none_iff]
  refine not_congr (Iff.trans ?_ hslice.symm)
  omega

/-- An opcode is bits 24:22 below seven zeros (spec/30_encoding.md R67). -/
theorem opcodeOf_iff_slices (w : Word) (op : Opcode) :
    opcodeOf w = some op ↔ w.extractLsb 31 25 = 0 ∧ w.extractLsb 24 22 = BitVec.ofNat _ (opVal op) := by
  have hw := w.isLt
  have hop := opVal_lt op
  rw [opcodeOf_iff]
  refine Iff.trans ?_ (and_congr (slice_eq_ofNat_iff w 31 25 0) (slice_eq_ofNat_iff w 24 22 (opVal op))).symm
  omega

theorem opField_range (w : Word) : -512 ≤ opField w ∧ opField w ≤ 511 := by
  have hw := w.isLt
  rw [opField, takeField_fst, sval_eq]
  split <;> omega

theorem opcodeOf_none_iff_opField (w : Word) : opcodeOf w = none ↔ opField w < 0 ∨ 7 < opField w := by
  rw [opcodeOf_none_iff]
  refine ⟨opField_out w, fun hout hlt => ?_⟩
  rw [opField_eq w hlt] at hout
  omega

theorem opField_eq_slice {w : Word} (h : w.extractLsb 31 25 = 0) : opField w = (w.extractLsb 24 22).toNat := by
  have hw := w.isLt
  have htop := (slice_eq_ofNat_iff w 31 25 0).1 h
  have hlt : w.toNat < 2 ^ 25 := by omega
  rw [opField_eq w hlt, slice_toNat]
  omega

/-- Settles O4: the decoder answers BadOpcode where no opcode has the shifted value, that is outside 0 to 7, and the
shift brings bits 31:25 in above bit 2. -/
theorem badOpcodeExactlyWhenTopBitsSet : Obligations.BadOpcodeExactlyWhenTopBitsSet := by
  intro w
  obtain ⟨hlo, hhi⟩ := opField_range w
  refine ⟨hlo, hhi, ?_, ?_, opField_eq_slice⟩
  · rw [decode_eq_badOpcode_iff, opcodeOf_none_iff_opField]
  · rw [decode_eq_badOpcode_iff, opcodeOf_none_iff_slice]

/-- Settles O9: BadDestReg is the error of format R alone, opcodes 0 and 1, and a word without an opcode never comes to
it. -/
theorem badDestRegExactly : Obligations.BadDestRegExactly := by
  refine fun w => ⟨?_, fun htop _ => decode_none ((opcodeOf_none_iff_slice w).2 htop)⟩
  rw [decode_eq_badDestReg_iff, seven_lt_low16_iff, opcodeOf_iff_slices, opcodeOf_iff_slices, ← and_or_left,
    and_assoc]
  rfl

end Sys2Proof
end

section
/-! PROOFS. Words under masks: the opcode table's match and mask, and the ignored bits that the encoder clears
(spec/30_encoding.md sections 3 and 6). -/

namespace Sys2Proof

/-! ## Masks as arithmetic on the unsigned value of the word (spec/00_scope.md R8) -/

/-- The mask of the bits from `k` up. -/
def maskFrom (k : Nat) : Word := BitVec.allOnes 32 <<< k

theorem and_maskFrom_toNat (w : Word) (k : Nat) :
    (w &&& maskFrom k).toNat = w.toNat / 2 ^ k * 2 ^ k := by
  have hle : w.toNat / 2 ^ k * 2 ^ k < 2 ^ 32 := Nat.lt_of_le_of_lt (Nat.div_mul_le_self _ _) w.isLt
  rw [maskFrom, ← BitVec.shiftLeft_ushiftRight, BitVec.toNat_shiftLeft, BitVec.toNat_ushiftRight,
    Nat.shiftRight_eq_div_pow, Nat.shiftLeft_eq, Nat.mod_eq_of_lt hle]

theorem and_low16_toNat (w : Word) : (w &&& 0x0000FFFF#32).toNat = w.toNat % 2 ^ 16 := by
  rw [BitVec.toNat_and]
  exact Nat.and_two_pow_sub_one_eq_mod w.toNat 16

/-- A mask of two disjoint parts, matched on the first part alone. -/
theorem and_or_eq_iff (w : Word) {a b m : Word} (hma : m &&& a = m) (hmb : m &&& b = 0) :
    w &&& (a ||| b) = m ↔ w &&& a = m ∧ w &&& b = 0 := by
  constructor
  · intro h
    have ha : (a ||| b) &&& a = a := by
      ext k
      simp +contextual
    have hb : (a ||| b) &&& b = b := by
      ext k
      simp +contextual
    rw [← hma, ← hmb, ← h, BitVec.and_assoc, BitVec.and_assoc, ha, hb]
    exact ⟨rfl, rfl⟩
  · rintro ⟨ha, hb⟩
    rw [BitVec.and_or_distrib_left, ha, hb]
    exact BitVec.or_zero

/-! ## The opcode table's match and mask -/

theorem opcodeOf_iff_mask (w : Word) (op : Opcode) {m : Word} (hm : m.toNat = opVal op * 2 ^ 22) :
    opcodeOf w = some op ↔ w &&& 0xFFC00000#32 = m := by
  have hmask : (0xFFC00000#32 : Word) = maskFrom 22 := by decide
  rw [opcodeOf_iff, hmask, ← BitVec.toNat_inj, and_maskFrom_toNat w 22, hm]
  omega

theorem low16_le_seven_iff_mask (w : Word) : low16 w ≤ 7 ↔ w &&& 0x0000FFF8#32 = 0 := by
  have hmask : (0x0000FFF8#32 : Word) = 0x0000FFFF#32 &&& maskFrom 3 := by decide
  rw [low16_eq, hmask, ← BitVec.and_assoc, ← BitVec.toNat_inj, and_maskFrom_toNat _ 3, and_low16_toNat]
  change _ ↔ _ = 0
  omega

/-- Format R's mask adds the bits of destReg that must be 0 to the opcode's (spec/30_encoding.md R72). -/
theorem formatR_iff_mask (w : Word) (op : Opcode) {m : Word} (hm : m.toNat = opVal op * 2 ^ 22)
    (htop : m &&& 0xFFC00000#32 = m) (hlow : m &&& 0x0000FFF8#32 = 0) :
    opcodeOf w = some op ∧ low16 w ≤ 7 ↔ w &&& 0xFFC0FFF8#32 = m := by
  have hmask : (0xFFC0FFF8#32 : Word) = 0xFFC00000#32 ||| 0x0000FFF8#32 := by decide
  rw [opcodeOf_iff_mask w op hm, low16_le_seven_iff_mask, hmask, and_or_eq_iff w htop hlow]

theorem opcodeOf_of_decode {w : Word} {i : Instr} (h : decode w = .ok i) : opcodeOf w = some i.opcode := by
  obtain ⟨hop, -, -⟩ := (decode_eq_ok_iff w i).1 h
  exact hop

theorem fitsDestReg_of_decode {w : Word} {i : Instr} (h : decode w = .ok i) : FitsDestReg w i.opcode := by
  obtain ⟨-, hfit, -⟩ := (decode_eq_ok_iff w i).1 h
  exact hfit

/-- Settles O8: a row's opcode is the match under bits 31:22, and for format R the low field is at most 7 exactly where
bits 15:3 are 0. -/
theorem opcodeTableMatchesAndMasks : Obligations.OpcodeTableMatchesAndMasks := by
  intro w
  refine ⟨?_, ?_, ?_, ?_, ?_, ?_, ?_, ?_⟩
  · rw [← formatR_iff_mask w .add (by decide) (by decide) (by decide)]
    exact ⟨fun ⟨_, _, _, h⟩ => ⟨opcodeOf_of_decode h, fitsDestReg_of_decode h (.inl rfl)⟩,
      fun ⟨hop, hlow⟩ => ⟨_, _, _, (decode_add hop).trans (decodeR_ok .add hlow)⟩⟩
  · rw [← formatR_iff_mask w .nand (by decide) (by decide) (by decide)]
    exact ⟨fun ⟨_, _, _, h⟩ => ⟨opcodeOf_of_decode h, fitsDestReg_of_decode h (.inr rfl)⟩,
      fun ⟨hop, hlow⟩ => ⟨_, _, _, (decode_nand hop).trans (decodeR_ok .nand hlow)⟩⟩
  · rw [← opcodeOf_iff_mask w .lw (by decide)]
    exact ⟨fun ⟨_, _, _, h⟩ => opcodeOf_of_decode h, fun hop => ⟨_, _, _, decode_lw hop⟩⟩
  · rw [← opcodeOf_iff_mask w .sw (by decide)]
    exact ⟨fun ⟨_, _, _, h⟩ => opcodeOf_of_decode h, fun hop => ⟨_, _, _, decode_sw hop⟩⟩
  · rw [← opcodeOf_iff_mask w .beq (by decide)]
    exact ⟨fun ⟨_, _, _, h⟩ => opcodeOf_of_decode h, fun hop => ⟨_, _, _, decode_beq hop⟩⟩
  · rw [← opcodeOf_iff_mask w .jalr (by decide)]
    exact ⟨fun ⟨_, _, h⟩ => opcodeOf_of_decode h, fun hop => ⟨_, _, decode_jalr hop⟩⟩
  · rw [← opcodeOf_iff_mask w .halt (by decide)]
    exact ⟨opcodeOf_of_decode, decode_halt⟩
  · rw [← opcodeOf_iff_mask w .noop (by decide)]
    exact ⟨opcodeOf_of_decode, decode_noop⟩

/-! ## Encoding what a word decodes to (spec/30_encoding.md section 6) -/

theorem word32_natCast (n : Nat) : word32 (n : Int) = BitVec.ofNat 32 n := BitVec.ofInt_natCast 32 n

/-- Opcode and register fields put back in their places are the word's bits from 16 up. -/
theorem encodeBase_fields {w : Word} {op : Opcode} (hop : opcodeOf w = some op) :
    encodeBase op (regOfField (regAField w)) (regOfField (regBField w)) =
      ((w.toNat / 2 ^ 16 * 2 ^ 16 : Nat) : Int) := by
  have hval := (opcodeOf_iff w op).1 hop
  rw [encodeBase, regAField_eq, regBField_eq, regOfField_ofNat, regOfField_ofNat]
  omega

/-- With the low field they are the word. -/
theorem word32_encodeBase_add_low16 {w : Word} {op : Opcode} (hop : opcodeOf w = some op) :
    word32 (encodeBase op (regOfField (regAField w)) (regOfField (regBField w)) + low16 w) = w := by
  have hw : (w.toNat / 2 ^ 16 * 2 ^ 16 : Nat) + (w.toNat % 2 ^ 16 : Nat) = (w.toNat : Int) := by omega
  rw [encodeBase_fields hop, low16_eq, hw, word32_natCast, BitVec.ofNat_toNat, BitVec.setWidth_eq]

/-- The encoder's `imm mod 2^16` undoes sign extension (spec/30_encoding.md R81). -/
theorem sext16_emod {u : Int} (h0 : 0 ≤ u) (h : u < 2 ^ 16) : sext16 u % 2 ^ 16 = u := by
  unfold sext16
  split <;> omega

theorem instrOf_wellFormed (w : Word) (op : Opcode) : (instrOf w op).wellFormed = true := by
  obtain ⟨h0, h⟩ := low16_range w
  have hoff := (offsetInRange_iff _).2 (sext16_range h0 h)
  cases op with
  | lw => exact hoff
  | sw => exact hoff
  | beq => exact hoff
  | _ => rfl

theorem word32_eq_and_maskFrom (w : Word) (k : Nat) :
    word32 ((w.toNat / 2 ^ k * 2 ^ k : Nat) : Int) = w &&& maskFrom k := by
  rw [word32_natCast, ← and_maskFrom_toNat w k, BitVec.ofNat_toNat, BitVec.setWidth_eq]

/-- HALT and NOOP have an opcode alone. -/
theorem word32_encodeBase_zero {w : Word} {op : Opcode} (hop : opcodeOf w = some op) :
    word32 (encodeBase op 0 0) = w &&& maskFrom 22 := by
  have hbase : encodeBase op 0 0 = ((w.toNat / 2 ^ 22 * 2 ^ 22 : Nat) : Int) := by
    rw [(opcodeOf_iff w op).1 hop]
    simp [encodeBase]
  rw [hbase, word32_eq_and_maskFrom w 22]

theorem encode_instrOf {w : Word} {op : Opcode} (hop : opcodeOf w = some op) (hfit : FitsDestReg w op) :
    encode (instrOf w op) = w &&& ~~~ (ignoredBits op) := by
  obtain ⟨h0, h⟩ := low16_range w
  have hall : w &&& ~~~ (0 : Word) = w := BitVec.and_allOnes
  have hR : op = .add ∨ op = .nand → ((regOfField (low16 w)).val : Int) = low16 w := fun hfmt =>
    regOfField_val_of_range h0 (hfit hfmt)
  have hI := sext16_emod h0 h
  have hword := word32_encodeBase_add_low16 hop
  cases op with
  | add => rw [instrOf, encode, ignoredBits, hall, hR (.inl rfl), hword]
  | nand => rw [instrOf, encode, ignoredBits, hall, hR (.inr rfl), hword]
  | lw => rw [instrOf, encode, ignoredBits, hall, hI, hword]
  | sw => rw [instrOf, encode, ignoredBits, hall, hI, hword]
  | beq => rw [instrOf, encode, ignoredBits, hall, hI, hword]
  | jalr =>
    have hmask : ~~~ (ignoredBits .jalr) = maskFrom 16 := by decide
    rw [instrOf, encode, hmask, encodeBase_fields hop, word32_eq_and_maskFrom w 16]
  | halt =>
    have hmask : ~~~ (ignoredBits .halt) = maskFrom 22 := by decide
    rw [instrOf, encode, hmask, word32_encodeBase_zero hop]
  | noop =>
    have hmask : ~~~ (ignoredBits .noop) = maskFrom 22 := by decide
    rw [instrOf, encode, hmask, word32_encodeBase_zero hop]

/-- Settles O11: the instruction is the one the word's fields spell, and the encoder puts each field back in its
place. -/
theorem encodeDecodeClearsIgnoredBits : Obligations.EncodeDecodeClearsIgnoredBits := by
  intro w i h
  obtain ⟨hop, hfit, hi⟩ := (decode_eq_ok_iff w i).1 h
  rw [hi, instrOf_opcode]
  exact ⟨instrOf_wellFormed w i.opcode, encode_instrOf hop hfit⟩

end Sys2Proof
end

section
/-! PROOFS. What each instruction does when it completes and when its address or target is out of range, and the
assembler and the loader (spec/30_encoding.md section 7, 40_alu.md, 41_memory.md, 42_control.md, 43_system.md,
70_reset_and_hazards.md section 1). -/

namespace Sys2Proof.Machine

/-! ## Frames -/

theorem State.complete_sameMemory (s : State) (n : Nat) : SameMemory s (s.complete n) := ⟨fun _ => rfl, rfl, rfl⟩

theorem State.complete_sameRegs (s : State) (n : Nat) : SameRegs s (s.complete n) := fun _ => rfl

theorem State.takeFault_faultedFrom (s : State) (f : RunFault) : FaultedFrom s f (s.takeFault f) :=
  ⟨rfl, fun _ => rfl, fun _ => rfl, rfl, rfl, rfl⟩

/-! ## ADD, HALT and NOOP -/

theorem word32_sval_add (a b : Word) : word32 (sval a + sval b) = a + b := by
  rw [word32, BitVec.ofInt_add, BitVec.ofInt_toInt, BitVec.ofInt_toInt]

/-- Settles O16: ADD completes with the ALU's sum written to `x[rA]`, and the word of an integer sum is the sum modulo
2^32. -/
theorem addWritesRegA : Obligations.AddWritesRegA := by
  intro rA rB rD s
  let v := alu .add (s.reg rD) (s.reg rB)
  have hrA := State.setReg_complete_reg_self s rA v (s.pc + 1)
  have hregs := State.setReg_complete_sameRegsBut s rA v (s.pc + 1)
  have hmem := State.setReg_complete_sameMemory s rA v (s.pc + 1)
  refine ⟨_, exec_add_eq rA rB rD s, hrA, ?_, hregs, hmem, rfl, rfl⟩
  rw [hrA, show v = s.reg rD + s.reg rB from word32_sval_add _ _, BitVec.toNat_add]

/-- In a terminal state the run control takes no step (spec/10_state.md R34). -/
theorem step_of_terminal {s : State} (hs : s.status ≠ .running) : step s = .fault .runEnded := by
  rw [step, runStep]
  cases hstatus : s.status with
  | running => exact absurd hstatus hs
  | halted => rfl
  | exhaustedMemory => rfl
  | faulted f => rfl

/-- Settles O27: HALT completes as NOOP does, and then the status is Halted, which is terminal. -/
theorem haltEndsTheRun : Obligations.HaltEndsTheRun := by
  intro s
  refine ⟨_, exec_halt_eq s, rfl, rfl, fun _ => rfl, fun _ => rfl, rfl, rfl, ?_⟩
  exact step_of_terminal nofun

/-- Settles O28: NOOP is the completion alone. -/
theorem noopOnlyAdvances : Obligations.NoopOnlyAdvances := by
  intro s
  exact ⟨_, exec_noop_eq s, rfl, s.complete_sameRegs (s.pc + 1), s.complete_sameMemory (s.pc + 1), rfl⟩

/-! ## The address translator, LW and SW -/

theorem translateAddr_eq_ok_iff (base : Word) (imm : Int) (a : Nat) :
    translateAddr base imm = .ok a ↔ (a : Int) = sval base + imm ∧ a < 65536 := by
  refine ⟨translateAddr_eq_ok, fun ⟨hsum, hlt⟩ => ?_⟩
  rw [translateAddr_ok (by omega) (by omega), ← hsum, Int.toNat_natCast]

/-- The wrapped sum and the exact one are the same integer, or both lie outside the memory. -/
theorem sval_add_word32 (base : Word) {imm : Int} (hlo : -32768 ≤ imm) (hhi : imm ≤ 32767) :
    sval (base + word32 imm) = sval base + imm ∨
      (65536 ≤ sval (base + word32 imm) ∧ sval base + imm < 0) ∨
      (sval (base + word32 imm) < 0 ∧ 65536 ≤ sval base + imm) := by
  have hbase : sval base = base.toInt := rfl
  have hmin := BitVec.le_toInt base
  have hmax := BitVec.toInt_lt (x := base)
  have hsum : sval (base + word32 imm) = (base.toInt + imm).bmod (2 ^ 32) := by
    rw [sval, word32, BitVec.toInt_add, BitVec.toInt_ofInt, Int.add_bmod_bmod]
  rw [hsum, Int.bmod_def]
  split <;> omega

theorem translateAddrWrapped_eq (base : Word) {imm : Int} (hlo : -32768 ≤ imm) (hhi : imm ≤ 32767) :
    translateAddrWrapped base imm = translateAddr base imm := by
  have hwrapped : translateAddrWrapped base imm = translateAddr (base + word32 imm) 0 := by
    simp only [translateAddrWrapped, translateAddr, Int.add_zero]
  rw [hwrapped]
  rcases sval_add_word32 base hlo hhi with heq | ⟨hbig, hneg⟩ | ⟨hneg, hbig⟩
  · simp only [translateAddr, Int.add_zero, heq]
  · rw [translateAddr_error (.inr (by omega)), translateAddr_error (.inl hneg)]
  · rw [translateAddr_error (.inl (by omega)), translateAddr_error (.inr hbig)]

/-- Settles O18: the translator is the exact sum with a range check, and an encodable offset cannot wrap the sum from
outside the memory into it. -/
theorem translatorIsExactAndBounded : Obligations.TranslatorIsExactAndBounded :=
  ⟨translateAddr_eq_ok_iff, fun _ _ => translateAddr_error, fun base _ => translateAddrWrapped_eq base⟩

/-- Settles O19: a good address is translated to itself, and LW completes with the word there written to `x[rB]`. -/
theorem lwLoadsTheWord : Obligations.LwLoadsTheWord := by
  intro rA rB imm s hlo hhi
  refine ⟨_, exec_lw_ok (translateAddr_ok hlo hhi), ?_⟩
  exact ⟨State.setReg_complete_reg_self .., State.setReg_complete_sameRegsBut s _ _ _,
    State.setReg_complete_sameMemory .., rfl, rfl⟩

/-- Settles O20: SW completes with one word stored, which a canonical memory reads back there and nowhere else. -/
theorem swStoresTheWord : Obligations.SwStoresTheWord := by
  intro rA rB imm s hm a ha
  have hread (b : Nat) := State.storeWord_memWord hm a (s.reg rB) b
  refine ⟨_, exec_sw_ok ha, (hread a).trans (if_pos rfl), fun b hb => (hread b).trans (if_neg hb), ?_⟩
  exact ⟨fun hgrow => if_pos hgrow, fun hlive => if_neg (Nat.not_le.2 hlive), fun _ => rfl, rfl, rfl, rfl⟩

/-- Settles O21: the translator's error is the fault that LW and SW take. -/
theorem badAddressFaultsWithoutEffect : Obligations.BadAddressFaultsWithoutEffect := by
  intro rA rB imm s hbad
  have herr := translateAddr_error hbad
  exact ⟨⟨_, exec_lw_error herr, s.takeFault_faultedFrom _⟩, ⟨_, exec_sw_error herr, s.takeFault_faultedFrom _⟩⟩

/-! ## BEQ and JALR -/

/-- BEQ completes at whatever target in range its comparison selects. -/
theorem exec_beq_of_target {rA rB : Reg} {imm : Int} {s : State} {n : Nat}
    (htarget : branchTarget s.pc (s.reg rA) (s.reg rB) imm = n) (hn : n ≤ 65536) :
    exec (.beq rA rB imm) s = .next (s.complete n) := by
  have hcheck : checkTarget (branchTarget s.pc (s.reg rA) (s.reg rB) imm) = none := by
    rw [htarget]
    exact checkTarget_none (by omega) (by omega)
  rw [exec_beq_ok hcheck, htarget, Int.toNat_natCast]

/-- Settles O22: the target is `pc + imm` where the patterns agree and `pc + 1` where they differ, and a fetch's pc is
below 65536. -/
theorem beqBranchesOnEquality : Obligations.BeqBranchesOnEquality := by
  intro rA rB imm s
  refine ⟨fun heq hlo hhi => ?_, fun hne hpc => ?_⟩
  · obtain ⟨n, hn⟩ := Int.eq_ofNat_of_zero_le hlo
    refine ⟨s.complete n, exec_beq_of_target ((branchTarget_eq heq).trans hn) (by omega), hn.symm, ?_⟩
    exact ⟨s.complete_sameRegs n, s.complete_sameMemory n, rfl⟩
  · refine ⟨s.complete (s.pc + 1), exec_beq_of_target (branchTarget_ne hne) (by omega), rfl, ?_⟩
    exact ⟨s.complete_sameRegs _, s.complete_sameMemory _, rfl⟩

/-- Settles O23: the target is `x[rA]` from before the link is written. -/
theorem jalrLinksAndJumps : Obligations.JalrLinksAndJumps := by
  intro rA rB s hne hlo hhi
  have htarget : jalrTarget s.pc rA rB (s.reg rA) = sval (s.reg rA) := jalrTarget_ne hne
  have hcheck : checkTarget (jalrTarget s.pc rA rB (s.reg rA)) = none := by
    rw [htarget]
    exact checkTarget_none hlo hhi
  refine ⟨_, exec_jalr_ok hcheck, ?_⟩
  rw [htarget, jalrLink_ne hne]
  exact ⟨State.setReg_complete_reg_self .., Int.toNat_of_nonneg hlo, State.setReg_complete_sameRegsBut s _ _ _,
    State.setReg_complete_sameMemory .., rfl⟩

/-- Settles O25: the target check's error is the fault that BEQ and JALR take. -/
theorem badTargetFaultsWithoutEffect : Obligations.BadTargetFaultsWithoutEffect := by
  refine ⟨fun rA rB imm s heq hbad => ?_, fun rA rB s hne hbad => ?_⟩
  · have hcheck : checkTarget (branchTarget s.pc (s.reg rA) (s.reg rB) imm) = some .pcTarget := by
      rw [branchTarget_eq heq]
      exact checkTarget_some hbad
    exact ⟨_, exec_beq_error hcheck, s.takeFault_faultedFrom _⟩
  · have hcheck : checkTarget (jalrTarget s.pc rA rB (s.reg rA)) = some .pcTarget := by
      rw [jalrTarget_ne hne]
      exact checkTarget_some hbad
    exact ⟨_, exec_jalr_error hcheck, s.takeFault_faultedFrom _⟩

/-- A register equals itself, so the branch is taken, to the BEQ's own pc. -/
theorem step_beq_self {r : Reg} {s : State} (h : s.AboutToRun (.beq r r 0)) : step s = .next (s.complete s.pc) := by
  rw [step_of_aboutToRun h]
  obtain ⟨⟨-, -, hcap⟩, -⟩ := h
  exact exec_beq_of_target ((branchTarget_eq rfl).trans (Int.add_zero _)) (Nat.le_of_lt hcap)

/-- Settles O26: each step leaves the pc and what the fetch reads alone, so the next step is the same BEQ. -/
theorem beqSelfLoopNeverEnds : Obligations.BeqSelfLoopNeverEnds := by
  intro r s h k
  induction k generalizing s with
  | zero => rfl
  | succ k ih =>
    have hagain : (s.complete s.pc).AboutToRun (.beq r r 0) := h.of_sameMemory rfl (s.complete_sameMemory s.pc)
    rw [run_succ_of_step (M := core) (step_beq_self h) k, ih (s.complete s.pc) hagain]
    simp only [State.complete, Nat.add_assoc, Nat.add_comm 1 k]

/-! ## The assembler (spec/30_encoding.md section 7) -/

theorem assemble_instr {i : Instr} (hwf : i.wellFormed = true) : (Stmt.instr i).assemble = some (encode i) :=
  if_pos hwf

theorem assemble_eq_none_of_offset {i : Instr} {imm : Int} (hi : i.wellFormed = offsetInRange imm)
    (h : imm < -32768 ∨ 32767 < imm) : (Stmt.instr i).assemble = none := by
  refine if_neg fun hwf => ?_
  obtain ⟨hlo, hhi⟩ := (offsetInRange_iff imm).1 (hi ▸ hwf)
  omega

/-- A data word is congruent to its value (spec/30_encoding.md R84). -/
theorem word32_toNat_emod (v : Int) : (((word32 v).toNat : Int) - v) % 2 ^ 32 = 0 := by
  rw [word32, BitVec.toNat_ofInt]
  omega

/-- The offset is relative to the BEQ itself, so adding it to `pc` gives the label (spec/30_encoding.md R85). -/
theorem exec_beq_branchOffset {rA rB : Reg} {L : Nat} {s : State} (heq : s.reg rA = s.reg rB) (hL : L ≤ 65536) :
    ∃ t, exec (.beq rA rB (branchOffset s.pc L)) s = .next t ∧ t.pc = L := by
  have htarget : branchTarget s.pc (s.reg rA) (s.reg rB) (branchOffset s.pc L) = L := by
    rw [branchTarget_eq heq, branchOffset]
    omega
  exact ⟨_, exec_beq_of_target htarget hL, rfl⟩

/-- Settles O12: the assembler gives the encoder's word exactly where the offset fits, `.fill` gives the pattern
congruent to its value, and a BEQ's target `P + (L - P)` is the label. -/
theorem assemblyMeansWhatItSays : Obligations.AssemblyMeansWhatItSays := by
  refine ⟨fun i hwf => ⟨_, assemble_instr hwf, decode_encode hwf⟩, fun rA rB imm h => ?_, fun v hlo hhi => ?_, ?_⟩
  · exact ⟨assemble_eq_none_of_offset rfl h, assemble_eq_none_of_offset rfl h, assemble_eq_none_of_offset rfl h⟩
  · exact ⟨_, if_pos ⟨hlo, hhi⟩, word32_toNat_emod v⟩
  · exact fun rA rB L s heq hL => exec_beq_branchOffset heq hL

/-! ## The loader (spec/70_reset_and_hazards.md section 1) -/

theorem State.load_of_fits {img : List Word} (h : img.length ≤ 65536) :
    State.load img = .next { State.reset with mem := Memory.ofImage 0 img, ext := img.length } :=
  if_pos h

/-- The words of a loaded image from 0 on, and 0 past it. -/
theorem Memory.read_ofImage_zero (img : List Word) (k : Nat) :
    (Memory.ofImage 0 img).read k = img[k]?.getD Memory.unlisted := by
  simpa using Memory.read_ofImage 0 img k

/-- Settles O14: the loaded state is reset's but for the memory, which reads as the image and 0 past it, and the
extent. -/
theorem loadStartsTheRun : Obligations.LoadStartsTheRun := by
  refine ⟨fun img hfit => ?_, fun img hbig => if_neg (Nat.not_le.2 hbig), rfl⟩
  refine ⟨_, State.load_of_fits hfit, State.reset_reg, rfl, rfl, rfl, rfl, fun k hk => ?_, fun k hk => ?_⟩
  · rw [State.memWord, Memory.read_ofImage_zero, List.getElem?_eq_getElem hk, Option.getD_some]
  · rw [State.memWord, Memory.read_ofImage_zero, List.getElem?_eq_none hk, Option.getD_none]
    rfl

end Sys2Proof.Machine
end

section
/-! PROOFS. The outcomes of a step, said once, and what follows for the status, the count and the faults
(spec/70_reset_and_hazards.md R184, 60_exceptions.md R158, 10_state.md R35). -/

namespace Sys2Proof.Machine

/-! ## What a completing instruction commits -/

/-- HALT's completion ends the run; no other one touches the status (spec/43_system.md R145). -/
def statusAfter (i : Instr) (s : State) : Status := if i = .halt then .halted else s.status

theorem statusAfter_of_ne {i : Instr} (h : i ≠ .halt) (s : State) : statusAfter i s = s.status := if_neg h

/-- The state after an instruction that raises nothing. -/
def completed (i : Instr) (s : State) : State := (committed i s).finish (statusAfter i s)

theorem State.commitReg_status (s : State) (we : Bool) (wa : Option Reg) (wd : Word) :
    (s.commitReg we wa wd).status = s.status := by
  rcases we with _ | _ <;> rcases wa with _ | _ <;> rfl

theorem State.commitReg_instructionsExecuted (s : State) (we : Bool) (wa : Option Reg) (wd : Word) :
    (s.commitReg we wa wd).instructionsExecuted = s.instructionsExecuted := by
  rcases we with _ | _ <;> rcases wa with _ | _ <;> rfl

theorem State.commitStore_status (s : State) (store : Option (Nat × Word)) :
    (s.commitStore store).status = s.status := by
  rcases store with _ | ⟨a, v⟩ <;> rfl

theorem State.commitStore_instructionsExecuted (s : State) (store : Option (Nat × Word)) :
    (s.commitStore store).instructionsExecuted = s.instructionsExecuted := by
  rcases store with _ | ⟨a, v⟩ <;> rfl

theorem committed_status (i : Instr) (s : State) : (committed i s).status = s.status := by
  rw [committed, State.complete_status, State.commitReg_status, State.commitStore_status]

theorem completed_status (i : Instr) (s : State) : (completed i s).status = statusAfter i s := rfl

theorem completed_instructionsExecuted (i : Instr) (s : State) :
    (completed i s).instructionsExecuted = s.instructionsExecuted + 1 := by
  rw [completed, State.finish_instructionsExecuted, committed, State.complete_instructionsExecuted,
    State.commitReg_instructionsExecuted, State.commitStore_instructionsExecuted]

theorem completed_eq_committed {i : Instr} (hi : i ≠ .halt) (s : State) : completed i s = committed i s := by
  rw [completed, statusAfter_of_ne hi, ← committed_status i s]
  rfl

theorem exec_of_raised_none {i : Instr} {s : State} (h : raised i s = none) :
    exec i s = .next (completed i s) := by
  by_cases hi : i = .halt
  · subst hi
    rfl
  · rw [completed_eq_committed hi, ← retired_of_raised_none h]
    cases i with
    | halt => exact absurd rfl hi
    | _ => rfl

/-- Every meaning completes, or takes the BoundsError it raises. -/
theorem exec_cases {i : Instr} {s t : State} (h : exec i s = .next t) :
    (raised i s = none ∧ t = completed i s) ∨ ∃ e, raised i s = some e ∧ t = s.takeFault (.boundsError e) := by
  cases hr : raised i s with
  | none =>
    cases (exec_of_raised_none hr).symm.trans h
    exact .inl ⟨rfl, rfl⟩
  | some e =>
    cases (exec_of_raised hr).symm.trans h
    exact .inr ⟨e, rfl, rfl⟩

/-! ## What an instruction can raise -/

/-- MemAddress is the translator's, so LW's and SW's alone (spec/60_exceptions.md R157). -/
theorem raised_eq_memAddress {i : Instr} {s : State} (h : raised i s = some .memAddress) :
    ∃ rA rB imm, i = .lw rA rB imm ∨ i = .sw rA rB imm := by
  cases i with
  | lw rA rB imm => exact ⟨rA, rB, imm, .inl rfl⟩
  | sw rA rB imm => exact ⟨rA, rB, imm, .inr rfl⟩
  | beq rA rB imm =>
    obtain ⟨he, -⟩ := checkTarget_eq_some ((raised_beq rA rB imm s).symm.trans h)
    cases he
  | jalr rA rB =>
    obtain ⟨he, -⟩ := checkTarget_eq_some ((raised_jalr rA rB s).symm.trans h)
    cases he
  | _ => cases h

theorem errorOf_translateAddr_ne_pcTarget (base : Word) (imm : Int) :
    errorOf (translateAddr base imm) ≠ some .pcTarget := by
  intro h
  cases ha : translateAddr base imm with
  | ok a =>
    rw [ha] at h
    cases h
  | error e =>
    obtain ⟨rfl, -⟩ := translateAddr_eq_error ha
    rw [ha] at h
    cases h

/-- PcTarget is the target check's: BEQ's or JALR's alone, and never of the sequential advance or the self-jump, whose
targets are in range wherever a fetch can be (spec/42_control.md R127, R128). -/
theorem raised_eq_pcTarget {i : Instr} {s : State} (hpc : s.pc < 65536) (h : raised i s = some .pcTarget) :
    (∃ rA rB imm, i = .beq rA rB imm ∧ s.reg rA = s.reg rB) ∨ ∃ rA rB, i = .jalr rA rB ∧ rA ≠ rB := by
  cases i with
  | lw rA rB imm => exact absurd ((raised_lw rA rB imm s).symm.trans h) (errorOf_translateAddr_ne_pcTarget _ _)
  | sw rA rB imm => exact absurd ((raised_sw rA rB imm s).symm.trans h) (errorOf_translateAddr_ne_pcTarget _ _)
  | beq rA rB imm =>
    obtain ⟨-, hout⟩ := checkTarget_eq_some ((raised_beq rA rB imm s).symm.trans h)
    refine .inl ⟨rA, rB, imm, rfl, by_contra fun hne => ?_⟩
    rw [branchTarget_ne hne] at hout
    omega
  | jalr rA rB =>
    obtain ⟨-, hout⟩ := checkTarget_eq_some ((raised_jalr rA rB s).symm.trans h)
    refine .inr ⟨rA, rB, rfl, ?_⟩
    rintro rfl
    rw [jalrTarget_self] at hout
    omega
  | _ => cases h

/-! ## The outcomes of a step -/

/-- The four ways a step leads from `s` to a next state, each with the conditions it happens under. -/
inductive StepOutcome (s : State) : State → Prop
  | exhausted (hrun : s.status = .running) (hext : s.ext ≤ s.pc) : StepOutcome s (s.finish .exhaustedMemory)
  | decodeError {e : DecodeErr} (hfetch : s.Fetches) (hdec : decode (s.memWord s.pc) = .error e) :
      StepOutcome s (s.takeFault (.decodeError e))
  | boundsError {i : Instr} {e : BoundsErr} (hi : s.AboutToRun i) (hr : raised i s = some e) :
      StepOutcome s (s.takeFault (.boundsError e))
  | completed {i : Instr} (hi : s.AboutToRun i) (hr : raised i s = none) : StepOutcome s (completed i s)

theorem step_outcome {s t : State} (h : step s = .next t) : StepOutcome s t := by
  obtain ⟨hrun, ⟨hext, rfl⟩ | ⟨hext, hcap, ⟨e, hdec, rfl⟩ | ⟨i, hdec, hexec⟩⟩⟩ := step_cases h
  · exact .exhausted hrun hext
  · exact .decodeError ⟨hrun, hext, hcap⟩ hdec
  · have hi : s.AboutToRun i := ⟨⟨hrun, hext, hcap⟩, hdec⟩
    rcases exec_cases hexec with ⟨hr, rfl⟩ | ⟨e, hr, rfl⟩
    · exact .completed hi hr
    · exact .boundsError hi hr

theorem completed_status_of_running {s : State} (hrun : s.status = .running) (i : Instr) :
    (completed i s).status = if i = .halt then .halted else .running := by
  rw [completed_status, statusAfter, hrun]

theorem completed_ne_faulted {s : State} (hrun : s.status = .running) (i : Instr) (f : RunFault) :
    (completed i s).status ≠ .faulted f := by
  rw [completed_status_of_running hrun]
  split <;> nofun

theorem completed_ne_exhausted {s : State} (hrun : s.status = .running) (i : Instr) :
    (completed i s).status ≠ .exhaustedMemory := by
  rw [completed_status_of_running hrun]
  split <;> nofun

theorem halt_of_completed_halted {s : State} (hrun : s.status = .running) {i : Instr}
    (h : (completed i s).status = .halted) : i = .halt := by
  rw [completed_status_of_running hrun] at h
  split at h
  · assumption
  · cases h

theorem State.AboutToRun.running {s : State} {i : Instr} (h : s.AboutToRun i) : s.status = .running := by
  obtain ⟨⟨hrun, -, -⟩, -⟩ := h
  exact hrun

theorem State.AboutToRun.pc_lt {s : State} {i : Instr} (h : s.AboutToRun i) : s.pc < 65536 := by
  obtain ⟨⟨-, -, hcap⟩, -⟩ := h
  exact hcap

/-- Settles O33: a faulting step is one of the two outcomes that take a fault, and taking it writes the status. -/
theorem faultsCommitNothing : Obligations.FaultsCommitNothing := by
  intro s t f h hf
  cases step_outcome h with
  | exhausted => cases hf
  | decodeError =>
    cases hf
    rfl
  | boundsError =>
    cases hf
    rfl
  | completed hi => exact absurd hf (completed_ne_faulted hi.running _ f)

/-- Settles O34: only a completion counts, and only a completion leaves the status Running or Halted. -/
theorem stepCountsCompletedInstructions : Obligations.StepCountsCompletedInstructions := by
  intro s t h
  cases step_outcome h with
  | exhausted => exact ⟨by simp, fun _ => rfl, fun _ _ => rfl⟩
  | decodeError => exact ⟨by simp, fun _ => rfl, fun _ _ => rfl⟩
  | boundsError => exact ⟨by simp, fun _ => rfl, fun _ _ => rfl⟩
  | @completed i hi =>
    exact ⟨fun _ => completed_instructionsExecuted i s, fun hst => absurd hst (completed_ne_exhausted hi.running i),
      fun f hst => absurd hst (completed_ne_faulted hi.running i f)⟩

/-! ## How the status leaves Running -/

theorem step_halted_iff {s t : State} (h : step s = .next t) : t.status = .halted ↔ s.AboutToRun .halt := by
  constructor
  · intro hst
    cases step_outcome h with
    | completed hi => exact halt_of_completed_halted hi.running hst ▸ hi
    | _ => cases hst
  · intro hi
    rw [step_of_aboutToRun hi] at h
    cases exec_halt h
    rfl

theorem step_exhausted_iff {s t : State} (h : step s = .next t) : t.status = .exhaustedMemory ↔ s.ext ≤ s.pc := by
  constructor
  · intro hst
    cases step_outcome h with
    | exhausted _ hext => exact hext
    | completed hi => exact absurd hst (completed_ne_exhausted hi.running _)
    | _ => cases hst
  · intro hext
    obtain ⟨hrun, -⟩ := step_cases h
    rw [step_exhausted hrun hext] at h
    cases h
    rfl

theorem step_decodeError_iff {s t : State} (h : step s = .next t) (e : DecodeErr) :
    t.status = .faulted (.decodeError e) ↔ s.Fetches ∧ decode (s.memWord s.pc) = .error e := by
  constructor
  · intro hst
    cases step_outcome h with
    | decodeError hfetch hdec =>
      cases hst
      exact ⟨hfetch, hdec⟩
    | completed hi => exact absurd hst (completed_ne_faulted hi.running _ _)
    | _ => cases hst
  · rintro ⟨⟨hrun, hext, hcap⟩, hdec⟩
    rw [step_fetch hrun hext hcap, fetchExecute_error hdec] at h
    cases h
    rfl

/-- A BoundsError is raised by the instruction the step runs. -/
theorem step_boundsError {s t : State} (h : step s = .next t) {e : BoundsErr}
    (hst : t.status = .faulted (.boundsError e)) : ∃ i, s.AboutToRun i ∧ raised i s = some e := by
  cases step_outcome h with
  | boundsError hi hr =>
    cases hst
    exact ⟨_, hi, hr⟩
  | completed hi => exact absurd hst (completed_ne_faulted hi.running _ _)
  | _ => cases hst

/-- Settles O32: each status comes of one outcome of the step, under that outcome's condition, and the cause of a
BoundsError says which block raised it. -/
theorem statusLeavesRunningOnlyAsListed : Obligations.StatusLeavesRunningOnlyAsListed := by
  intro s t h
  obtain ⟨hrun, -⟩ := step_cases h
  refine ⟨hrun, step_halted_iff h, step_exhausted_iff h, step_decodeError_iff h, fun hst => ?_, fun hst => ?_⟩
  · obtain ⟨i, hi, hr⟩ := step_boundsError h hst
    obtain ⟨rA, rB, imm, rfl | rfl⟩ := raised_eq_memAddress hr
    · exact ⟨rA, rB, imm, .inl hi⟩
    · exact ⟨rA, rB, imm, .inr hi⟩
  · obtain ⟨i, hi, hr⟩ := step_boundsError h hst
    rcases raised_eq_pcTarget hi.pc_lt hr with ⟨rA, rB, imm, rfl, heq⟩ | ⟨rA, rB, rfl, hne⟩
    · exact .inl ⟨rA, rB, imm, hi, heq⟩
    · exact .inr ⟨rA, rB, hi, hne⟩

/-- Settles O29: the state fetches, and the fetched word decodes. -/
theorem stepRunsTheDecodedInstruction : Obligations.StepRunsTheDecodedInstruction :=
  fun _ _ hrun hext hcap hdec => step_of_aboutToRun ⟨⟨hrun, hext, hcap⟩, hdec⟩

/-- Settles O30: the run control's other branches: the terminal states, the extent check and the decoder's error. -/
theorem stepEndsTheRun : Obligations.StepEndsTheRun := by
  refine ⟨fun s => step_of_terminal, fun s hrun => ⟨fun hext => ?_, fun e hext hcap hdec => ?_⟩⟩
  · exact ⟨_, step_exhausted hrun hext, rfl, fun _ => rfl, rfl, rfl, rfl, rfl⟩
  · rw [step_fetch hrun hext hcap, fetchExecute_error hdec]
    exact ⟨_, rfl, s.takeFault_faultedFrom _⟩

end Sys2Proof.Machine
end

section
/-! PROOFS. The invariant: it holds at the start of a run, every step keeps it, and under it a Running state has a next
state and is determined by its report (spec/10_state.md sections 3 and 4, 70_reset_and_hazards.md section 2). -/

namespace Sys2Proof.Machine

/-! ## Every step keeps the invariant -/

/-- The sequential advance from a fetch's pc, and a target that passed its check, lie in the pc's range. -/
theorem nextPc_le {i : Instr} {s : State} (hpc : s.pc < 65536) (h : raised i s = none) :
    nextPc i s.pc (src1 i s) (src2 i s) ≤ 65536 := by
  have hseq : (s.pc : Int) + 1 ≤ 65536 := by omega
  cases i with
  | beq rA rB imm =>
    obtain ⟨-, hle⟩ := checkTarget_eq_none ((raised_beq rA rB imm s).symm.trans h)
    exact hle
  | jalr rA rB =>
    obtain ⟨-, hle⟩ := checkTarget_eq_none ((raised_jalr rA rB s).symm.trans h)
    exact hle
  | _ => exact hseq

theorem step_pc_le {s t : State} (hpc : s.pc ≤ 65536) (h : step s = .next t) : t.pc ≤ 65536 := by
  cases step_outcome h with
  | exhausted => exact hpc
  | decodeError => exact hpc
  | boundsError => exact hpc
  | completed hi hr => exact Int.toNat_le.2 (nextPc_le hi.pc_lt hr)

theorem State.StoresTo.lt {s : State} {a : Nat} (h : s.StoresTo a) : a < 65536 := by
  obtain ⟨rA, rB, imm, -, ha⟩ := h
  obtain ⟨-, hlt⟩ := translateAddr_eq_ok ha
  exact hlt

theorem step_ext_le_capacity {s t : State} (hext : s.ext ≤ 65536) (h : step s = .next t) : t.ext ≤ 65536 := by
  rcases step_memory h with ⟨-, ht⟩ | ⟨a, v, hstores, -, ht⟩ <;> rw [ht]
  · exact hext
  · have hlt := hstores.lt
    rw [State.storeWord_ext]
    split <;> omega

/-- A store lists no word above the extent it grows to. -/
theorem State.storeWord_below_ext {s : State} (hbelow : ∀ c ∈ s.mem, c.1 < s.ext) (a : Nat) (v : Word) :
    ∀ c ∈ (s.storeWord a v).mem, c.1 < (s.storeWord a v).ext := by
  intro c hc
  rw [State.storeWord_ext]
  rcases Memory.mem_write hc with rfl | hold
  · dsimp only
    split <;> omega
  · have hlt := hbelow c hold
    split <;> omega

theorem step_below_ext {s t : State} (hbelow : ∀ c ∈ s.mem, c.1 < s.ext) (h : step s = .next t) :
    ∀ c ∈ t.mem, c.1 < t.ext := by
  rcases step_memory h with ⟨hmem, hext⟩ | ⟨a, v, -, hmem, hext⟩ <;> rw [hmem, hext]
  · exact hbelow
  · exact State.storeWord_below_ext hbelow a v

theorem step_inv {s t : State} (hs : s.Inv) (h : step s = .next t) : t.Inv := by
  obtain ⟨hpc, hext, hwf, hbelow⟩ := hs
  exact ⟨step_pc_le hpc h, step_ext_le_capacity hext h, step_wf hwf h, step_below_ext hbelow h⟩

/-- Settles O40: the PC logic checks its targets and a fetch's pc is below 65536; a store's index is below 65536, and
the store grows the extent to cover it and keeps the memory canonical. -/
theorem stepKeepsInvariant : Obligations.StepKeepsInvariant := fun _ _ => step_inv

/-! ## The start of a run, and every state of it -/

theorem State.load_inv {img : List Word} {s : State} (h : State.load img = .next s) : s.Inv := by
  have hwf := State.load_wf h
  obtain ⟨hfit, rfl⟩ := State.load_eq_next h
  refine ⟨Nat.zero_le _, hfit, hwf, fun c hc => ?_⟩
  obtain ⟨-, hlt⟩ := Memory.mem_ofImage hc
  simpa using hlt

/-- Settles O15: reset is the load of the empty image, and an image's words lie below its length. -/
theorem invariantAtReset : Obligations.InvariantAtReset :=
  ⟨State.load_inv (img := []) rfl, fun _ _ => State.load_inv⟩

theorem RunsTo.inv {s t : State} (h : RunsTo s t) (hs : s.Inv) : t.Inv := by
  induction h with
  | refl => exact hs
  | head hstep _ ih => exact ih (step_inv hs hstep)

theorem fetchExecute_next (s : State) : ∃ t, fetchExecute s = .next t := by
  cases hdec : decode (s.memWord s.pc) with
  | error e => exact ⟨_, fetchExecute_error hdec⟩
  | ok i =>
    rw [fetchExecute_ok hdec]
    exact exec_next i s

theorem step_next_of_inv {s : State} (hs : s.Inv) (hrun : s.status = .running) : ∃ t, step s = .next t := by
  obtain ⟨-, hcapacity, -, -⟩ := hs
  by_cases hext : s.ext ≤ s.pc
  · exact ⟨_, step_exhausted hrun hext⟩
  · have hlive : s.pc < s.ext := Nat.not_le.1 hext
    rw [step_fetch hrun hlive (Nat.lt_of_lt_of_le hlive hcapacity)]
    exact fetchExecute_next s

/-- Settles O46: a live pc is below `ext`, so inside the memory, and the decoder and every meaning answer. -/
theorem runningInvariantStatesStep : Obligations.RunningInvariantStatesStep := fun _ => step_next_of_inv

/-- Settles O41: the invariant holds all along a run from a loaded image. -/
theorem runningStatesAlwaysStep : Obligations.RunningStatesAlwaysStep := by
  intro img s₀ s hload hrun
  have hinv : s.Inv := hrun.inv (State.load_inv hload)
  exact ⟨hinv, step_next_of_inv hinv⟩

/-! ## Memory and extent along a run -/

/-- Settles O39: a step stores one word or leaves the memory and `ext` alone. -/
theorem onlyStoresChangeMemoryAndExtent : Obligations.OnlyStoresChangeMemoryAndExtent := by
  refine ⟨fun s t a hm h hne => ?_, fun s t h hne => ?_, fun s t h => h.ext_le⟩
  · exact by_contra fun quiet => hne (step_memWord_of_quiet hm quiet h)
  · rcases step_memory h with ⟨-, hext⟩ | ⟨a, v, hstores, -, hext⟩
    · exact absurd hext hne
    · rw [State.storeWord_ext] at hext
      split at hext
      · next hgrow => exact ⟨a, hstores, hgrow, hext⟩
      · exact absurd hext hne

/-! ## The report determines the state -/

/-- A listed word of a canonical memory reads as itself, which no unlisted word does. -/
theorem Memory.read_head_ne_unlisted {a : Nat} {v : Word} {m : Memory} (hm : Memory.wf ((a, v) :: m)) :
    Memory.read ((a, v) :: m) a ≠ Memory.unlisted := by
  obtain ⟨-, hlisted⟩ := hm
  rw [Memory.read_cons, if_pos rfl]
  exact hlisted (a, v) (List.mem_cons_self ..)

/-- Of two canonical memories that read alike, neither starts at an index below the other's. -/
theorem Memory.head_le_of_read_eq {a b : Nat} {v u : Word} {m n : Memory} (hm : Memory.wf ((a, v) :: m))
    (hn : Memory.wf ((b, u) :: n)) (h : Memory.read ((a, v) :: m) a = Memory.read ((b, u) :: n) a) : b ≤ a := by
  by_contra hlt
  refine Memory.read_head_ne_unlisted hm (h.trans (Memory.read_of_lt fun c hc => ?_))
  rcases List.mem_cons.1 hc with rfl | hc
  · exact Nat.not_le.1 hlt
  · exact Nat.lt_trans (Nat.not_le.1 hlt) (Memory.wf_head hn c hc)

/-- The tail of a canonical memory reads as the memory does, but for its first word, which the tail does not list. -/
theorem Memory.read_tail {a : Nat} {v : Word} {m : Memory} (hm : Memory.wf ((a, v) :: m)) (b : Nat) :
    Memory.read m b = if b = a then Memory.unlisted else Memory.read ((a, v) :: m) b := by
  rw [Memory.read_cons]
  split
  · next heq => exact heq ▸ Memory.read_of_lt (Memory.wf_head hm)
  · rfl

/-- The canonical form is one: canonical memories that read alike are equal. -/
theorem Memory.eq_of_read_eq {m n : Memory} (hm : m.wf) (hn : n.wf) (h : ∀ a, m.read a = n.read a) : m = n := by
  induction m generalizing n with
  | nil =>
    cases n with
    | nil => rfl
    | cons d n => exact absurd (h d.1).symm (Memory.read_head_ne_unlisted hn)
  | cons c m ih =>
    cases n with
    | nil => exact absurd (h c.1) (Memory.read_head_ne_unlisted hm)
    | cons d n =>
      obtain ⟨a, v⟩ := c
      obtain ⟨b, u⟩ := d
      obtain rfl : a = b := Nat.le_antisymm (Memory.head_le_of_read_eq hn hm (h b).symm)
        (Memory.head_le_of_read_eq hm hn (h a))
      have hhead := h a
      rw [Memory.read_cons, Memory.read_cons, if_pos rfl, if_pos rfl] at hhead
      have htail : m = n := ih (Memory.wf_tail hm) (Memory.wf_tail hn) fun k => by
        rw [Memory.read_tail hm, Memory.read_tail hn, h]
      rw [hhead, htail]

/-- A word at or above `ext` is unlisted. -/
theorem State.Inv.memWord_of_ext_le {s : State} (hs : s.Inv) {a : Nat} (ha : s.ext ≤ a) :
    s.memWord a = Memory.unlisted := by
  obtain ⟨-, -, -, hbelow⟩ := hs
  exact Memory.read_of_not_mem fun c hc => Nat.ne_of_lt (Nat.lt_of_lt_of_le (hbelow c hc) ha)

/-- The snapshot lists the live words, and all others read as unlisted. -/
theorem memWord_eq_of_snapshot_memory {s t : State} (hs : s.Inv) (ht : t.Inv) (hext : s.ext = t.ext)
    (hmem : s.snapshot.memory = t.snapshot.memory) (a : Nat) : s.memWord a = t.memWord a := by
  by_cases ha : a < s.ext
  · have hlive : ∀ b ∈ List.range s.ext, s.memWord b = t.memWord b := by
      rw [← List.map_inj_left]
      exact hmem.trans (by rw [hext]; rfl)
    exact hlive a (List.mem_range.2 ha)
  · have hle : s.ext ≤ a := Nat.not_lt.1 ha
    rw [hs.memWord_of_ext_le hle, ht.memWord_of_ext_le (hext ▸ hle)]

/-- Settles O44: the snapshot and the status are the state's fields but for the memory, and the memory's canonical form
is determined by the live words. -/
theorem reportDeterminesTheState : Obligations.ReportDeterminesTheState := by
  intro s t hs ht hsnap hstatus
  have hpc : s.pc = t.pc := congrArg Snapshot.pc hsnap
  have hregs : s.regs = t.regs := congrArg Snapshot.registers hsnap
  have hext : s.ext = t.ext := congrArg Snapshot.memoryExtent hsnap
  have hcount : s.instructionsExecuted = t.instructionsExecuted := congrArg Snapshot.instructionsExecuted hsnap
  have hread := memWord_eq_of_snapshot_memory hs ht hext (congrArg Snapshot.memory hsnap)
  obtain ⟨-, -, hwfs, -⟩ := hs
  obtain ⟨-, -, hwft, -⟩ := ht
  have hmem : s.mem = t.mem := Memory.eq_of_read_eq hwfs hwft hread
  cases s
  cases t
  cases hpc; cases hregs; cases hext; cases hcount; cases hmem; cases hstatus
  rfl

/-- Settles O43: the snapshot reads its fields off the state the step leads to. -/
theorem stepExposesTheCommittedState : Obligations.StepExposesTheCommittedState := by
  intro s t h
  have hsnap : stepSnapshot s = some t.snapshot := by rw [stepSnapshot, h]
  refine ⟨t.snapshot, hsnap, rfl, fun _ => rfl, rfl, rfl, ?_, fun k hk => ?_⟩
  · rw [State.snapshot, List.length_map, List.length_range]
  · rw [State.snapshot, List.getElem?_map, List.getElem?_range hk, Option.map_some]

/-! ## The status register's fields -/

/-- The status that the numeric fields name; the cause tells the kind (spec/10_state.md R33). -/
def Status.ofCodes (state : BitVec 2) (cause : BitVec 3) : Status :=
  if state = 0 then .running
  else if state = 1 then .halted
  else if state = 2 then .exhaustedMemory
  else if cause = 1 then .faulted (.decodeError .badOpcode)
  else if cause = 2 then .faulted (.decodeError .badDestReg)
  else if cause = 3 then .faulted (.boundsError .memAddress)
  else .faulted (.boundsError .pcTarget)

theorem Status.ofCodes_codes (st : Status) : Status.ofCodes st.stateCode st.causeCode = st := by
  rcases st with _ | _ | _ | ⟨⟨_ | _⟩ | ⟨_ | _⟩⟩ <;> rfl

theorem Status.kind_cause_codes (st : Status) :
    (st.stateCode ≠ 3 → st.kindCode = 0 ∧ st.causeCode = 0) ∧
      (st.stateCode = 3 → st.kindCode ≠ 0 ∧ st.causeCode ≠ 0) := by
  rcases st with _ | _ | _ | ⟨⟨_ | _⟩ | ⟨_ | _⟩⟩ <;> decide

/-- Settles O42: the codes are the table's, kind and cause 0 in its first three rows only, and a status can be read back
from them. -/
theorem statusCodes : Obligations.StatusCodes := by
  refine ⟨⟨rfl, rfl, rfl, fun _ => rfl⟩, fun _ => rfl, fun _ => rfl, rfl, rfl, rfl, rfl, Status.kind_cause_codes, ?_⟩
  intro st st' hstate _ hcause
  rw [← Status.ofCodes_codes st, hstate, hcause, Status.ofCodes_codes]

end Sys2Proof.Machine
end

section
/-! PROOFS. What an instruction reads: never the count, and no register but those of its read ports; and the one
register it writes (spec/10_state.md sections 2 and 5). -/

namespace Sys2Proof.Machine

/-! ## The register file's write port (spec/10_state.md R24, R25) -/

theorem State.commitStore_reg (s : State) (store : Option (Nat × Word)) (q : Reg) :
    (s.commitStore store).reg q = s.reg q := by
  rcases store with _ | ⟨a, v⟩ <;> rfl

theorem writeEnable_none {i : Instr} {q : Reg} (hq : writeReg i = some q) : writeEnable i none = true := by
  rw [writeEnable, hq]
  rfl

theorem writeEnable_some (i : Instr) (e : BoundsErr) : writeEnable i (some e) = false := Bool.and_false _

theorem State.commitReg_reg_self (s : State) (q : Reg) (v : Word) : (s.commitReg true (some q) v).reg q = v :=
  State.setReg_reg_self s q v

/-- The write port writes at most the register it addresses. -/
theorem State.commitReg_reg_ne (s : State) {wa : Option Reg} {q : Reg} (hq : wa ≠ some q) (we : Bool) (v : Word) :
    (s.commitReg we wa v).reg q = s.reg q := by
  rcases we with _ | _
  · rfl
  · rcases wa with _ | r
    · rfl
    · exact State.setReg_reg_ne s v fun heq => hq (congrArg some heq.symm)

theorem completed_reg_ne {i : Instr} {q : Reg} (hq : writeReg i ≠ some q) (s : State) :
    (completed i s).reg q = s.reg q := by
  rw [completed, State.finish_reg, committed, State.complete_reg, State.commitReg_reg_ne _ hq, State.commitStore_reg]

theorem completed_reg_self {i : Instr} {s : State} {q : Reg} (hr : raised i s = none) (hq : writeReg i = some q) :
    (completed i s).reg q = writeData i s := by
  rw [completed, State.finish_reg, committed, State.complete_reg, hr, writeEnable_none hq, hq, State.commitReg_reg_self]

/-- The register file's part in every meaning: the write port's register, if it completes. -/
theorem exec_registers {i : Instr} {s t : State} (hrun : s.status = .running) (h : exec i s = .next t) :
    (∀ q, writeReg i ≠ some q → t.reg q = s.reg q) ∧
    (∀ f, t.status = .faulted f → writeEnable i (raised i s) = false ∧ SameRegs s t) ∧
    ∀ q, writeReg i = some q → (∀ f, t.status ≠ .faulted f) →
      writeEnable i (raised i s) = true ∧ t.reg q = writeData i s := by
  rcases exec_cases h with ⟨hr, rfl⟩ | ⟨e, hr, rfl⟩
  · refine ⟨fun q hq => completed_reg_ne hq s, fun f hf => absurd hf (completed_ne_faulted hrun i f), fun q hq _ => ?_⟩
    exact ⟨hr ▸ writeEnable_none hq, completed_reg_self hr hq⟩
  · refine ⟨fun _ _ => rfl, fun f _ => ⟨hr ▸ writeEnable_some i e, fun _ => rfl⟩, fun q _ hok => ?_⟩
    exact absurd rfl (hok (.boundsError e))

/-! ## What a completion commits to pc and memory -/

theorem completed_pc (i : Instr) (s : State) : (completed i s).pc = (nextPc i s.pc (src1 i s) (src2 i s)).toNat := rfl

theorem State.commitReg_mem (s : State) (we : Bool) (wa : Option Reg) (wd : Word) :
    (s.commitReg we wa wd).mem = s.mem := by
  rcases we with _ | _ <;> rcases wa with _ | _ <;> rfl

theorem State.commitReg_ext (s : State) (we : Bool) (wa : Option Reg) (wd : Word) :
    (s.commitReg we wa wd).ext = s.ext := by
  rcases we with _ | _ <;> rcases wa with _ | _ <;> rfl

theorem completed_mem (i : Instr) (s : State) : (completed i s).mem = (s.commitStore (memWrite i s)).mem := by
  rw [completed, State.finish_mem, committed, State.complete_mem, State.commitReg_mem]

theorem completed_ext (i : Instr) (s : State) : (completed i s).ext = (s.commitStore (memWrite i s)).ext := by
  rw [completed, State.finish_ext, committed, State.complete_ext, State.commitReg_ext]

/-! ## What a meaning reads -/

/-- The two states agree on all that `i` may read: pc, memory, its extent, and the data of its read ports. -/
structure SameOperands (i : Instr) (s s' : State) : Prop where
  pc : s'.pc = s.pc
  mem : s'.mem = s.mem
  ext : s'.ext = s.ext
  src1 : src1 i s' = src1 i s
  src2 : src2 i s' = src2 i s

theorem src1_congr {i : Instr} {s s' : State} (h : ∀ q, src1Reg i = some q → s'.reg q = s.reg q) :
    src1 i s' = src1 i s := by
  cases hq : src1Reg i with
  | none => rw [src1, src1, hq]
  | some q => rw [src1_eq hq, src1_eq hq, h q hq]

theorem src2_congr {i : Instr} {s s' : State} (h : ∀ q, src2Reg i = some q → s'.reg q = s.reg q) :
    src2 i s' = src2 i s := by
  cases hq : src2Reg i with
  | none => rw [src2, src2, hq]
  | some q => rw [src2_eq hq, src2_eq hq, h q hq]

namespace SameOperands
variable {i : Instr} {s s' : State} (h : SameOperands i s s')
include h

theorem nextPc_eq :
    nextPc i s'.pc (Machine.src1 i s') (Machine.src2 i s') = nextPc i s.pc (Machine.src1 i s) (Machine.src2 i s) := by
  rw [h.pc, h.src1, h.src2]

theorem addrErr_eq : addrErr i s' = addrErr i s := by
  cases i with
  | lw rA rB imm => rw [addrErr, addrErr, h.src1]
  | sw rA rB imm => rw [addrErr, addrErr, h.src1]
  | _ => rfl

theorem raised_eq : raised i s' = raised i s := by
  rw [raised, raised, h.addrErr_eq, h.pc, h.src1, h.src2]

theorem loadData_eq (r : Except BoundsErr Nat) : loadData r s' = loadData r s := by
  cases r with
  | ok a => rw [loadData, loadData, State.memWord, State.memWord, h.mem]
  | error e => rfl

theorem writeData_eq : writeData i s' = writeData i s := by
  cases i with
  | add rA rB rD => rw [writeData, writeData, h.src1, h.src2]
  | nand rA rB rD => rw [writeData, writeData, h.src1, h.src2]
  | lw rA rB imm => rw [writeData, writeData, h.src1, h.loadData_eq]
  | jalr rA rB => rw [writeData, writeData, h.pc]
  | _ => rfl

theorem memWrite_eq : memWrite i s' = memWrite i s := by
  cases i with
  | sw rA rB imm => rw [memWrite, memWrite, h.src1, h.src2]
  | _ => rfl

theorem commitStore_mem_ext (store : Option (Nat × Word)) :
    (s'.commitStore store).mem = (s.commitStore store).mem ∧
      (s'.commitStore store).ext = (s.commitStore store).ext := by
  rcases store with _ | ⟨a, v⟩
  · exact ⟨h.mem, h.ext⟩
  · rw [State.commitStore_some, State.commitStore_some, State.storeWord_mem, State.storeWord_mem, State.storeWord_ext,
      State.storeWord_ext, h.mem, h.ext]
    exact ⟨rfl, rfl⟩

end SameOperands

/-- Where the operands agree, the outcomes agree, whatever else the states hold. -/
theorem SameOperands.exec_eq {i : Instr} {s s' t t' : State} (h : SameOperands i s s') (hstatus : s'.status = s.status)
    (hcount : s'.instructionsExecuted = s.instructionsExecuted) (ht : exec i s = .next t)
    (ht' : exec i s' = .next t') :
    t'.pc = t.pc ∧ t'.mem = t.mem ∧ t'.ext = t.ext ∧ t'.status = t.status ∧
      t'.instructionsExecuted = t.instructionsExecuted ∧
      ∀ q, writeReg i = some q → (∀ f, t.status ≠ .faulted f) → t'.reg q = t.reg q := by
  cases hr : raised i s with
  | none =>
    have hr' : raised i s' = none := h.raised_eq.trans hr
    cases (exec_of_raised_none hr).symm.trans ht
    cases (exec_of_raised_none hr').symm.trans ht'
    obtain ⟨hmem, hext⟩ := h.commitStore_mem_ext (memWrite i s)
    rw [completed_pc, completed_pc, completed_mem, completed_mem, completed_ext, completed_ext, completed_status,
      completed_status, completed_instructionsExecuted, completed_instructionsExecuted, h.nextPc_eq, h.memWrite_eq,
      statusAfter, statusAfter, hstatus, hcount]
    refine ⟨rfl, hmem, hext, rfl, rfl, fun q hq _ => ?_⟩
    rw [completed_reg_self hr' hq, completed_reg_self hr hq, h.writeData_eq]
  | some e =>
    have hr' : raised i s' = some e := h.raised_eq.trans hr
    cases (exec_of_raised hr).symm.trans ht
    cases (exec_of_raised hr').symm.trans ht'
    exact ⟨h.pc, h.mem, h.ext, rfl, hcount, fun q _ hok => absurd rfl (hok (.boundsError e))⟩

/-- Settles O36: the read data are the ports' registers, the write port is the only way to the register file, and all
that an instruction computes is a function of pc, memory, extent and read data. -/
theorem registerFileControl : Obligations.RegisterFileControl := by
  refine ⟨fun i s q => ⟨fun hq => src1_eq hq s, fun hq => src2_eq hq s⟩, fun i s t => exec_registers, ?_⟩
  intro i s s' t t' hpc hmem hext hstatus hcount hregs _ ht ht'
  have hsame : SameOperands i s s' :=
    ⟨hpc, hmem, hext, src1_congr fun q hq => hregs q (.inl hq), src2_congr fun q hq => hregs q (.inr hq)⟩
  exact hsame.exec_eq hstatus hcount ht ht'

/-! ## The count -/

/-- `s` with the count `n` instead of its own. -/
def State.withCount (s : State) (n : Nat) : State := { s with instructionsExecuted := n }

theorem State.sameOperands_withCount (i : Instr) (s : State) (n : Nat) : SameOperands i s (s.withCount n) :=
  ⟨rfl, rfl, rfl, src1_congr fun _ _ => rfl, src2_congr fun _ _ => rfl⟩

theorem State.commitStore_withCount (s : State) (n : Nat) (store : Option (Nat × Word)) :
    (s.withCount n).commitStore store = (s.commitStore store).withCount n := by
  rcases store with _ | ⟨a, v⟩ <;> rfl

theorem State.commitReg_withCount (s : State) (n : Nat) (we : Bool) (wa : Option Reg) (wd : Word) :
    (s.withCount n).commitReg we wa wd = (s.commitReg we wa wd).withCount n := by
  rcases we with _ | _ <;> rcases wa with _ | _ <;> rfl

theorem committed_withCount (i : Instr) (s : State) (n : Nat) :
    committed i (s.withCount n) = (committed i s).withCount (n + 1) := by
  have h := s.sameOperands_withCount i n
  rw [committed, h.memWrite_eq, h.raised_eq, h.writeData_eq, h.nextPc_eq, State.commitStore_withCount,
    State.commitReg_withCount]
  rfl

/-- A meaning of a state at another count is its meaning at another count. -/
theorem exec_withCount {i : Instr} {s t : State} (h : exec i s = .next t) (n : Nat) :
    ∃ m, exec i (s.withCount n) = .next (t.withCount m) := by
  have hraised := (s.sameOperands_withCount i n).raised_eq
  rcases exec_cases h with ⟨hr, rfl⟩ | ⟨e, hr, rfl⟩
  · refine ⟨n + 1, (exec_of_raised_none (hraised.trans hr)).trans ?_⟩
    rw [completed, committed_withCount]
    rfl
  · exact ⟨n, exec_of_raised (hraised.trans hr)⟩

theorem fetchExecute_withCount {s t : State} (h : fetchExecute s = .next t) (n : Nat) :
    ∃ m, fetchExecute (s.withCount n) = .next (t.withCount m) := by
  cases hdec : decode (s.memWord s.pc) with
  | error e =>
    cases (fetchExecute_error hdec).symm.trans h
    exact ⟨n, fetchExecute_error (s := s.withCount n) hdec⟩
  | ok i =>
    rw [fetchExecute_ok (s := s.withCount n) hdec]
    exact exec_withCount ((fetchExecute_ok hdec).symm.trans h) n

theorem step_withCount {s t : State} (h : step s = .next t) (n : Nat) :
    ∃ m, step (s.withCount n) = .next (t.withCount m) := by
  obtain ⟨hrun, ⟨hext, rfl⟩ | ⟨hext, hcap, -⟩⟩ := step_cases h
  · exact ⟨n, step_exhausted (s := s.withCount n) hrun hext⟩
  · rw [step_fetch (s := s.withCount n) hrun hext hcap]
    exact fetchExecute_withCount ((step_fetch hrun hext hcap).symm.trans h) n

theorem step_outside {s : State} (hrun : s.status = .running) (hext : s.pc < s.ext) (hcap : 65536 ≤ s.pc) :
    step s = .fault .fetchOutsideMemory := by
  rw [step, runStep, hrun]
  exact (if_neg (Nat.not_le.2 hext)).trans (if_pos hcap)

/-- A step answers a next state but in a terminal state or where the fetch would leave the memory. -/
theorem step_total (s : State) :
    (∃ t, step s = .next t) ∨ (s.status ≠ .running ∧ step s = .fault .runEnded) ∨
      ((s.status = .running ∧ s.pc < s.ext ∧ 65536 ≤ s.pc) ∧ step s = .fault .fetchOutsideMemory) := by
  by_cases hrun : s.status = .running
  · by_cases hext : s.ext ≤ s.pc
    · exact .inl ⟨_, step_exhausted hrun hext⟩
    · have hlive : s.pc < s.ext := Nat.not_le.1 hext
      by_cases hcap : s.pc < 65536
      · exact .inl (step_fetch hrun hlive hcap ▸ fetchExecute_next s)
      · have hout : 65536 ≤ s.pc := Nat.not_lt.1 hcap
        exact .inr (.inr ⟨⟨hrun, hlive, hout⟩, step_outside hrun hlive hout⟩)
  · exact .inr (.inl ⟨hrun, step_of_terminal hrun⟩)

theorem step_fault_withCount {s : State} {f : Fault} (h : step s = .fault f) (n : Nat) :
    step (s.withCount n) = .fault f := by
  rcases step_total s with ⟨t, ht⟩ | ⟨hend, ht⟩ | ⟨⟨hrun, hext, hcap⟩, ht⟩ <;> cases ht.symm.trans h
  · exact step_of_terminal (s := s.withCount n) hend
  · exact step_outside (s := s.withCount n) hrun hext hcap

theorem step_ne_refused (s : State) (r : Refusal) : step s ≠ .refused r := by
  intro h
  rcases step_total s with ⟨t, ht⟩ | ⟨-, ht⟩ | ⟨-, ht⟩ <;> cases ht.symm.trans h

/-- Settles O35: the run control's checks, the fetch and an instruction's operands are the same at every count, and the
commit only adds to it. -/
theorem countIsNeverRead : Obligations.CountIsNeverRead :=
  fun s n => ⟨fun _ h => step_withCount h n, fun _ h => step_fault_withCount h n, step_ne_refused s⟩

end Sys2Proof.Machine
end
